-- ==== Sys2Proof/Word.lean ====
section
/-! DEFINITION. The word types of the bitmap codec block: the port words and their fields (rules R4,
R60, R61), and the block's own Row and Glyph (rule R21). -/

namespace Sys2Proof

/-- A glyph key: `KEY_W` = 21 bits, compared bit for bit (rules R4, R26). -/
abbrev Key := BitVec 21

/-- A character on a port: `CHAR_W` = 8 bits (rules R4, R7). -/
abbrev CharCode := BitVec 8

/-- The 3-bit type code of an import payload or of one of its values (rule R67). -/
abbrev TypeCode := BitVec 3

/-- A command word `CMD`, `CMD_W` = 184 bits, bit 0 least significant (rules R4, R60). -/
abbrev CmdWord := BitVec 184

/-- A response word `RSP`, `RSP_W` = 184 bits, bit 0 least significant (rules R4, R61). -/
abbrev RspWord := BitVec 184

/-- The 64-bit image of a Glyph (rule R23). -/
abbrev Image := BitVec 64

/-- A Row: exactly 8 Bits, index 0 to 7 (rule R21). -/
abbrev Row := Vector Bool 8

/-- A Glyph: exactly 8 Rows, index 0 to 7 from the top scanline to the bottom one (rule R21). -/
abbrev Glyph := Vector Row 8

/-- The hex form of a Row: always exactly `ROW_HEX_LEN` = 2 characters (rules R4, R32). -/
abbrev RowString := Vector CharCode 2

/-- The wire string of a Glyph: always exactly `GLYPH_HEX_LEN` = 16 characters (rules R4, R32). -/
abbrev WireString := Vector CharCode 16

end Sys2Proof
end

