-- ==== Sys2Proof/Syntax.lean ====
section
/-! DEFINITION. The instructions: the twelve commands and the four reserved opcodes of rule R62, each
with exactly the fields it reads (rule R62, column "fields read"), and the members of an import payload
(rule R140). -/

namespace Sys2Proof

/-- A command of the block: one constructor for each row of the opcode table (rule R62). A field has
exactly the width rule R60 gives it, or, for `data`, the width of the lanes the command reads. -/
inductive Instr where
  /-- ROWENC, opcode 0x0: `data` lane 0, a row byte (rule R83) -/
  | rowenc (row : BitVec 8)
  /-- ROWDEC, opcode 0x1: `len` and `data` lanes 0 and 1 (rule R86) -/
  | rowdec (len : BitVec 8) (chars : BitVec 16)
  /-- GLYENC, opcode 0x2: `data` lanes 0 to 7, a glyph image (rule R101) -/
  | glyenc (image : BitVec 64)
  /-- GLYDEC, opcode 0x3: `len` and `data` lanes 0 to 15 (rule R103) -/
  | glydec (len : BitVec 8) (chars : BitVec 128)
  /-- FTINIT, opcode 0x4: no operand (rule R121) -/
  | ftinit
  /-- FTLOOKUP, opcode 0x5: `key` (rule R123) -/
  | ftlookup (key : Key)
  /-- FTSETBIT, opcode 0x6: `key`, `row`, `col` and `val` (rule R125) -/
  | ftsetbit (key : Key) (row col : BitVec 3) (val : Bool)
  /-- FTSTAT, opcode 0x7: no operand (rule R126) -/
  | ftstat
  /-- FTEXPORT, opcode 0x8: `index` (rule R128) -/
  | ftexport (index : BitVec 8)
  /-- FTIMPBEGIN, opcode 0x9: `type` (rule R145) -/
  | ftimpbegin (ty : TypeCode)
  /-- FTIMPENTRY, opcode 0xA: `key`, `type`, `len` and `data` lanes 0 to 15 (rule R146) -/
  | ftimpentry (key : Key) (ty : TypeCode) (len : BitVec 8) (chars : BitVec 128)
  /-- FTIMPCOMMIT, opcode 0xB: no operand (rule R147) -/
  | ftimpcommit
  /-- reserved opcode 0xC (rule R64) -/
  | reservedC
  /-- reserved opcode 0xD (rule R64) -/
  | reservedD
  /-- reserved opcode 0xE (rule R64) -/
  | reservedE
  /-- reserved opcode 0xF (rule R64) -/
  | reservedF
  deriving DecidableEq, Repr

/-- One member of an import payload (rule R140): its key, the type code of its value and, when that is
STRING, the string operand (rule R65): its length and its characters in lanes. -/
structure Member where
  key : Key
  ty : TypeCode
  len : BitVec 8
  chars : BitVec 128
  deriving DecidableEq, Repr

/-- An import payload (rule R140): the type code of its top-level value and its members in the order the
host presents them. -/
structure Payload where
  top : TypeCode
  members : List Member
  deriving DecidableEq, Repr

end Sys2Proof
end

