-- ==== Sys2Proof/Decode.lean ====
section
/-! DEFINITION. The command word: its fields (rule R60), the decoder and the encoder (rules R60, R62).
Every word decodes: the sixteen values of `op` are the twelve commands and the four reserved opcodes, and
no other bit decides (rules R63, R64, R73). Nothing is refused. -/

namespace Sys2Proof

/-- The fields of a command word (rule R60), each zero unless written (rule R71: "Operands not written
are zero"). -/
structure CmdFields where
  op : BitVec 4
  ty : TypeCode := 0
  val : Bool := false
  col : BitVec 3 := 0
  row : BitVec 3 := 0
  len : BitVec 8 := 0
  index : BitVec 8 := 0
  key : Key := 0
  data : BitVec 128 := 0
  deriving DecidableEq, Repr

/-- The fields at the bit positions of rule R60. -/
def cmdFields (w : CmdWord) : CmdFields :=
  { op := w.extractLsb' 0 4
    ty := w.extractLsb' 4 3
    val := w.getLsbD 7
    col := w.extractLsb' 8 3
    row := w.extractLsb' 11 3
    len := w.extractLsb' 16 8
    index := w.extractLsb' 24 8
    key := w.extractLsb' 32 21
    data := w.extractLsb' 56 128 }

/-- The word with the fields at the bit positions of rule R60; the reserved bits `[15:14]` and `[55:53]`
are written as zero. -/
def cmdWord (f : CmdFields) : CmdWord :=
  f.data ++ 0#3 ++ f.key ++ f.index ++ f.len ++ 0#2 ++ f.row ++ f.col ++ BitVec.ofBool f.val ++ f.ty ++ f.op

/-- The instruction of a command word's fields: `op` alone selects it (rules R62, R63). The last arm is
opcode 0xF, the one value of a 4-bit field that is left. -/
def decodeFields (f : CmdFields) : Instr :=
  match f.op.toNat with
  | 0x0 => .rowenc (f.data.setWidth 8)
  | 0x1 => .rowdec f.len (f.data.setWidth 16)
  | 0x2 => .glyenc (f.data.setWidth 64)
  | 0x3 => .glydec f.len f.data
  | 0x4 => .ftinit
  | 0x5 => .ftlookup f.key
  | 0x6 => .ftsetbit f.key f.row f.col f.val
  | 0x7 => .ftstat
  | 0x8 => .ftexport f.index
  | 0x9 => .ftimpbegin f.ty
  | 0xA => .ftimpentry f.key f.ty f.len f.data
  | 0xB => .ftimpcommit
  | 0xC => .reservedC
  | 0xD => .reservedD
  | 0xE => .reservedE
  | _ => .reservedF

/-- The decoder: total on every command word. -/
def decode (w : CmdWord) : Instr :=
  decodeFields (cmdFields w)

/-- The opcode of an instruction (rule R62). -/
def opcode : Instr → BitVec 4
  | .rowenc _ => 0x0
  | .rowdec _ _ => 0x1
  | .glyenc _ => 0x2
  | .glydec _ _ => 0x3
  | .ftinit => 0x4
  | .ftlookup _ => 0x5
  | .ftsetbit _ _ _ _ => 0x6
  | .ftstat => 0x7
  | .ftexport _ => 0x8
  | .ftimpbegin _ => 0x9
  | .ftimpentry _ _ _ _ => 0xA
  | .ftimpcommit => 0xB
  | .reservedC => 0xC
  | .reservedD => 0xD
  | .reservedE => 0xE
  | .reservedF => 0xF

/-- The fields of an instruction's word: the opcode, the fields the command reads, and zero elsewhere. -/
def encodeFields (i : Instr) : CmdFields :=
  match i with
  | .rowenc row => { op := opcode i, data := row.setWidth 128 }
  | .rowdec len chars => { op := opcode i, len := len, data := chars.setWidth 128 }
  | .glyenc image => { op := opcode i, data := image.setWidth 128 }
  | .glydec len chars => { op := opcode i, len := len, data := chars }
  | .ftinit => { op := opcode i }
  | .ftlookup key => { op := opcode i, key := key }
  | .ftsetbit key row col val => { op := opcode i, key := key, row := row, col := col, val := val }
  | .ftstat => { op := opcode i }
  | .ftexport index => { op := opcode i, index := index }
  | .ftimpbegin ty => { op := opcode i, ty := ty }
  | .ftimpentry key ty len chars => { op := opcode i, key := key, ty := ty, len := len, data := chars }
  | .ftimpcommit => { op := opcode i }
  | .reservedC => { op := opcode i }
  | .reservedD => { op := opcode i }
  | .reservedE => { op := opcode i }
  | .reservedF => { op := opcode i }

/-- The encoder: the one command word of an instruction (rules R60, R62). -/
def encode (i : Instr) : CmdWord :=
  cmdWord (encodeFields i)

/-- A word of `nbits` bits as the opcode table numbers them, laid in a command word with every bit above
`nbits` zero. Log entry 13. -/
def tableWord (nbits w : Nat) : CmdWord :=
  BitVec.ofNat 184 (w % 2 ^ nbits)

/-- The instruction the decoder reads from an opcode table word; a word longer than `CMD_W` = 184 bits is
no command word of this block. -/
def decodeTableWord (nbits w : Nat) : Option Instr :=
  if nbits ≤ 184 then some (decode (tableWord nbits w)) else none

end Sys2Proof
end

