-- ==== Sys2Proof/Config.lean ====
section
/-! DEFINITION. What an implementation of the block fixes (rule R4): the two parameters the spec leaves
open, `TABLE_CAP` and `DEFAULT_ALPHABET`, and the 66 default keys the source names (rule R26). -/

namespace Sys2Proof.Config

/-- `n` consecutive keys from the code `first` on. -/
def keyRange (first n : Nat) : List Key :=
  (List.range n).map fun i => BitVec.ofNat 21 (first + i)

/-- `KNOWN66` (rule R26): the lowercase letters, the uppercase letters, the digits and `+ - _ ?`.
Their codes: log entry 10. -/
def known66 : List Key :=
  keyRange 0x61 26 ++ keyRange 0x41 26 ++ keyRange 0x30 10 ++ [0x2B, 0x2D, 0x5F, 0x3F]

/-- The parameters of one instance of the block (rule R4: "Parameters the model takes as arguments").
The model carries them in State, where no command can write them. Log entry 1. -/
structure Params where
  /-- `TABLE_CAP`: the most entries a table holds -/
  tableCap : Nat
  /-- `DEFAULT_ALPHABET`: the keys of the default table, in slot order -/
  alphabet : List Key
  deriving DecidableEq, Repr

/-- The constraints of rule R4 on `DEFAULT_ALPHABET`: pairwise distinct, every key of `KNOWN66` among
them, and no more of them than `cap`. -/
abbrev alphabetOk (cap : Nat) (ks : List Key) : Prop :=
  ks.Nodup ∧ (∀ k ∈ known66, k ∈ ks) ∧ ks.length ≤ cap

/-- The default of `TABLE_CAP` (rule R4, decision D15). Log entry 3. -/
def defaultTableCap : Nat := 128

theorem known66_codes :
    known66.map BitVec.toNat
      = List.range' 0x61 26 ++ List.range' 0x41 26 ++ List.range' 0x30 10 ++ [0x2B, 0x2D, 0x5F, 0x3F] := by
  decide +kernel

theorem known66_nodup : known66.Nodup := by
  have h : (known66.map BitVec.toNat).Nodup := by rw [known66_codes]; decide +kernel
  exact h.of_map

theorem known66_alphabetOk : alphabetOk defaultTableCap known66 :=
  ⟨known66_nodup, fun _ h => h, by decide +kernel⟩

/-- A default alphabet that rule R4 admits under the default `TABLE_CAP`: the keys with the proof that
they meet the constraints. The value written here only shows Lean that one exists. -/
structure DefaultAlphabet where
  keys : { ks : List Key // alphabetOk defaultTableCap ks } := ⟨known66, known66_alphabetOk⟩
  deriving Inhabited

/-- DESIGN CHOICE, log entry 2. `DEFAULT_ALPHABET` of the instance that `State.reset` describes is OPEN
(rule R4, decision D16, entries N3 and N4: the source names neither the three accented letters nor the
order). It has no body: nothing can be proved of it but that rule R4 admits it. -/
opaque defaultAlphabet : DefaultAlphabet

/-- The parameters of the instance that `State.reset` describes: the default `TABLE_CAP` and the open
alphabet. Statements over all states hold for every other instance too. -/
def resetParams : Params :=
  { tableCap := defaultTableCap, alphabet := defaultAlphabet.keys.val }

end Sys2Proof.Config
end

