-- ==== Sys2Proof/Machine/Operands.lean ====
section
/-! DEFINITION. The operand and result forms of the port words: lanes (rule R44), the row byte (rule
R22), the glyph image (rule R23), the character lanes of a string (rules R44, R65), and the type codes
(rule R67). -/

namespace Sys2Proof.Machine

/-- `lane(d, i) = d[8*i+7 : 8*i]` (rules R6, R44). -/
def lane {n : Nat} (d : BitVec n) (i : Nat) : BitVec 8 :=
  d.extractLsb' (8 * i) 8

/-- The field of `n` bits whose lane `i` is element `i` of the sequence, lanes above the last element zero
(rule R44). The one place where elements are laid in lanes. -/
def packLanes {n : Nat} : List (BitVec 8) → BitVec n
  | [] => 0
  | b :: bs => (packLanes bs <<< 8) ||| b.setWidth n

/-- `zext_128` (rule R6). -/
def zext128 {n : Nat} (v : BitVec n) : BitVec 128 :=
  v.setWidth 128

/-! ## Rows -/

/-- `row_value(w)`, the sum of `w[i] * 2^(7-i)` (rule R80). -/
def rowValue (w : Row) : Nat :=
  w[0].toNat * 2 ^ 7 + w[1].toNat * 2 ^ 6 + w[2].toNat * 2 ^ 5 + w[3].toNat * 2 ^ 4
    + w[4].toNat * 2 ^ 3 + w[5].toNat * 2 ^ 2 + w[6].toNat * 2 ^ 1 + w[7].toNat * 2 ^ 0

/-- The row byte: `row_value` as 8 bits (rules R22, R80). -/
def rowByte (w : Row) : BitVec 8 :=
  BitVec.ofNat 8 (rowValue w)

/-- The Row of a row byte: `w[i] = b[7-i]` (rules R22, R41). -/
def rowOfByte (b : BitVec 8) : Row :=
  Vector.ofFn fun i => b.getLsbD (7 - i)

/-! ## Glyphs -/

/-- The blank glyph: all bits false (rule R24). -/
def blankGlyph : Glyph :=
  Vector.replicate 8 (Vector.replicate 8 false)

/-- The glyph image: row `r` in byte lane `r`, row 0 least significant (rule R23). -/
def glyphImage (g : Glyph) : Image :=
  packLanes (g.toList.map rowByte)

/-- The Glyph of an image: `rowbyte(g[r]) = lane(G, r)` (rules R23, R66). -/
def glyphOfImage (G : Image) : Glyph :=
  Vector.ofFn fun r => rowOfByte (lane G r)

/-- `set_bit(g, r, c, v)`: the Glyph equal to `g` except that `g[r][c] = v` (rule R124). -/
def setBit (g : Glyph) (r c : Fin 8) (v : Bool) : Glyph :=
  g.set r (g[r].set c v)

/-! ## Strings -/

/-- `ROW_HEX_LEN`, as a value of the 8-bit length field (rule R4). -/
def rowHexLen : BitVec 8 := 2

/-- `GLYPH_HEX_LEN`, as a value of the 8-bit length field (rule R4). -/
def glyphHexLen : BitVec 8 := 16

/-- The sixteen characters of a string operand: character `i` in lane `i` (rules R44, R65). -/
def stringChars (d : BitVec 128) : WireString :=
  Vector.ofFn fun i => lane d i

/-- The `data` field of a string: character `i` in lane `i`, the other lanes zero (rules R44, R83, R101). -/
def stringData {n : Nat} (s : Vector CharCode n) : BitVec 128 :=
  packLanes s.toList

/-! ## Type codes (rule R67) -/

def typeObject : TypeCode := 0
def typeArray : TypeCode := 1
def typeString : TypeCode := 2
def typeNumber : TypeCode := 3
def typeBoolean : TypeCode := 4
def typeNull : TypeCode := 5
def typeOther : TypeCode := 6

end Sys2Proof.Machine
end

