-- ==== Sys2Proof/Machine/Table.lean ====
section
/-! DEFINITION. The font table as a store (rules R20, R25): a sequence of entries in slot order, the
primitives of rule R6 that reach it, and the invariant of rule R25. The block has no byte-addressed
memory (rule R40); this store is its memory, and slot order is part of its contents (rule R25). -/

namespace Sys2Proof.Machine

/-- One entry `(key, glyph)` of a table (rules R20, R25). -/
structure Entry where
  key : Key
  glyph : Glyph
  deriving DecidableEq, Repr

/-- A table: its entries in slot order, slot 0 first (rule R25). -/
abbrev Table := List Entry

/-- Rule R25: (a) the keys are pairwise distinct, (b) there are at most `cap` entries. Clause (c), every
glyph a full 8 by 8 Glyph, holds by the type `Glyph`. -/
abbrev Table.wf (cap : Nat) (T : Table) : Prop :=
  (T.map Entry.key).Nodup ∧ T.length ≤ cap

/-- `FtFind(T, k)`: the index of the entry whose key equals `k` in all 21 bits, or `none` (rules R6,
R122); the first one, where a state that no run reaches repeats a key (log entry 9). -/
def ftFind (T : Table) (k : Key) : Option (Fin T.length) :=
  T.findFinIdx? fun e => e.key == k

/-- `FtRead(T, i)`: the entry at index `i`, `0 <= i < |T|` (rule R6). -/
def ftRead (T : Table) (i : Fin T.length) : Entry :=
  T[i]

/-- `FtWrite(T, i, g)`: the glyph at index `i` replaced by `g`, key and position kept (rule R6). -/
def ftWrite (T : Table) (i : Fin T.length) (g : Glyph) : Table :=
  T.set i { ftRead T i with glyph := g }

/-- `FtAppend(T, k, g)`: `(k, g)` added after the last entry (rule R6). -/
def ftAppend (T : Table) (k : Key) (g : Glyph) : Table :=
  T ++ [{ key := k, glyph := g }]

/-- `default_table()`: one entry for each key of `DEFAULT_ALPHABET`, in its order, each with the blank
glyph (rule R120). -/
def defaultTable (alphabet : List Key) : Table :=
  alphabet.map fun k => { key := k, glyph := blankGlyph }

/-- An 8-bit `index` or `count` field that carries a slot number or a number of entries (rules R31, R61).
Log entry 8. -/
def slotCode (n : Nat) : BitVec 8 :=
  BitVec.ofNat 8 n

end Sys2Proof.Machine
end

