-- ==== Sys2Proof/Machine/State.lean ====
section
/-! DEFINITION. The machine's state (rules R20, R27, R33) with the two ends of its command port, the
statuses (rule R68), the response as a record of fields (rule R61), and the reasons a step can stop:
none of the spec's. -/

namespace Sys2Proof.Machine

/-- The outcome codes of rule R68; their numbers stand in `statusCode`. Log entry 7. -/
inductive Status where
  | ok
  | formatLen
  | formatDigit
  | validNotObject
  | validNotString
  | keyNotFound
  | tableFull
  | protocol
  | indexRange
  | illegalCmd
  deriving DecidableEq, Repr

/-- `ErrRecord` (rule R27), also the payload of `Err(status, f=v, ...)`, with the fields not named zero
(rules R6, R69). -/
structure ErrRecord where
  status : Status
  ty : TypeCode := 0
  exp : BitVec 8 := 0
  len : BitVec 8 := 0
  index : BitVec 8 := 0
  key : Key := 0
  deriving DecidableEq, Repr

/-- The fields of a response (rule R61). `rsp(status, f=v, ...)` sets the named fields and leaves every
other one zero (rules R6, R69). -/
structure Rsp where
  status : Status := .ok
  ty : TypeCode := 0
  flag : Bool := false
  exp : BitVec 8 := 0
  len : BitVec 8 := 0
  index : BitVec 8 := 0
  key : Key := 0
  data : BitVec 128 := 0
  deriving DecidableEq, Repr

/-- What the host can do at a command boundary: present a command word (rule R3), or reset the block
(rule R180). -/
inductive PortEvent where
  | command (w : CmdWord)
  | reset
  deriving DecidableEq, Repr

/-- The state. `ft`, `impOpen`, `st` and `impErr` are the whole architectural state of rule R20. The
other three fields are the model's own: `params` are the parameters of rule R4 (log entry 1), and `port`
and `rsps` are the two ends of the command port, what the host will do next and the response words it has
received (log entries 4 and 6). -/
structure State where
  /-- `TABLE_CAP` and `DEFAULT_ALPHABET` of this instance (rule R4); nothing writes them -/
  params : Config.Params
  /-- `FT`, the live font table (rules R20, R25) -/
  ft : Table
  /-- `imp_open`: an import session is open (rules R20, R27) -/
  impOpen : Bool
  /-- `ST`, the staging table (rules R20, R27) -/
  st : Table
  /-- `imp_err`: none, or the error the import will report at its end (rules R20, R27) -/
  impErr : Option ErrRecord
  /-- what the host does at the port from now on, the next first -/
  port : List PortEvent
  /-- the response words the block has sent, the oldest first -/
  rsps : List RspWord
  deriving DecidableEq, Repr

/-- The faults of the machine: there are none. Rule R3 makes the step total, and rule R166 has "No
operation in this core is fatal to the process"; an error of the spec is a response (rule R165). Log entry 14. -/
inductive Fault where
  deriving DecidableEq, Repr

/-- The refusals of the machine. -/
inductive Refusal where
  /-- raised by an arm of `exec` whose instruction has no meaning yet; safe. No arm raises it. -/
  | notModelled (mnemonic : String)
  deriving DecidableEq, Repr

/-- The machine right after reset (rules R33, R180): the default table, no session, nothing staged, no
error, and no response yet. The host has presented nothing yet. -/
def State.reset : State :=
  { params := Config.resetParams
    ft := defaultTable Config.resetParams.alphabet
    impOpen := false
    st := []
    impErr := none
    port := []
    rsps := [] }

end Sys2Proof.Machine
end

