-- ==== Sys2Proof/Machine/Flags.lean ====
section
/-! DEFINITION. The block has no flags or condition codes (rule R30): the outcome of a command is carried
by its response word alone. So this file holds the status numbers (rule R68) and the layout of the
response word (rule R61). -/

namespace Sys2Proof.Machine

/-- The status numbers (rule R68). -/
def statusCode : Status → BitVec 4
  | .ok => 0x0
  | .formatLen => 0x1
  | .formatDigit => 0x2
  | .validNotObject => 0x3
  | .validNotString => 0x4
  | .keyNotFound => 0x5
  | .tableFull => 0x6
  | .protocol => 0x7
  | .indexRange => 0x8
  | .illegalCmd => 0xF

/-- The response word: the fields at the bit positions of rule R61, bits `[55:53]` zero. -/
def rspWord (r : Rsp) : RspWord :=
  r.data ++ 0#3 ++ r.key ++ r.index ++ r.len ++ r.exp ++ BitVec.ofBool r.flag ++ r.ty ++ statusCode r.status

/-! The fields a host reads from a response word (rule R61). -/

def rspStatus (w : RspWord) : BitVec 4 := w.extractLsb' 0 4
def rspType (w : RspWord) : TypeCode := w.extractLsb' 4 3
def rspFlag (w : RspWord) : Bool := w.getLsbD 7
def rspExp (w : RspWord) : BitVec 8 := w.extractLsb' 8 8
def rspLen (w : RspWord) : BitVec 8 := w.extractLsb' 16 8
def rspIndex (w : RspWord) : BitVec 8 := w.extractLsb' 24 8
def rspKey (w : RspWord) : Key := w.extractLsb' 32 21
def rspData (w : RspWord) : BitVec 128 := w.extractLsb' 56 128

/-- The response of an error: the fields its record carries, and no row, glyph or string (rules R69,
R147, R161). -/
def errorRsp (e : ErrRecord) : Rsp :=
  { status := e.status, ty := e.ty, exp := e.exp, len := e.len, index := e.index, key := e.key }

end Sys2Proof.Machine
end

