-- ==== Sys2Proof/Machine/Ops.lean ====
section
/-! DEFINITION. The shared operations over the state: answering, failing (the block's one form of an
exception, rules R160, R165), the import session's fields (rule R27), and taking the next event from the
port. -/

namespace Sys2Proof.Machine

/-! ## Updates of the state -/

/-- The live table replaced (rule R6: "`FT <- T`"). -/
def State.withFt (s : State) (T : Table) : State :=
  { s with ft := T }

/-- The import session's fields replaced (rule R27). -/
def State.withSession (s : State) (isOpen : Bool) (st : Table) (err : Option ErrRecord) : State :=
  { s with impOpen := isOpen, st := st, impErr := err }

/-- `imp_open <- 0 ; ST <- [] ; imp_err <- none` (rules R121, R145, R147). -/
def closeSession (s : State) : State :=
  s.withSession false [] none

/-- `imp_open <- 1 ; ST <- [] ; imp_err <- none` (rule R145). -/
def openSession (s : State) : State :=
  s.withSession true [] none

/-! ## Answering -/

/-- `RSP <- r`: one response word leaves on the port (rules R3, R61). -/
def respond (r : Rsp) (s : State) : State :=
  { s with rsps := s.rsps ++ [rspWord r] }

/-- TAKING AN EXCEPTION, on this block: the command answers with the error and nothing else happens
(rule R165: "Nothing is saved anywhere: there is no cause register, no saved state, no vector, no mode
change, no stack"). There is no return from it either: after any response the block accepts the next
command (rule R166). -/
def fail (e : ErrRecord) (s : State) : State :=
  respond (errorRsp e) s

/-- A command that only answers: with its result's response, or with its error. -/
def answer (result : Except ErrRecord Rsp) (s : State) : State :=
  match result with
  | .ok r => respond r s
  | .error e => fail e s

/-! ## The errors (rule R161) -/

/-- Wrong length: the expected and the actual one. -/
def errFormatLen (exp len : BitVec 8) : ErrRecord :=
  { status := .formatLen, exp := exp, len := len }

/-- A character outside `0-9a-f`: both lengths are the expected one; `index` is its string index. -/
def errFormatDigit (exp index : BitVec 8) : ErrRecord :=
  { status := .formatDigit, exp := exp, len := exp, index := index }

def errNotObject (ty : TypeCode) : ErrRecord := { status := .validNotObject, ty := ty }
def errNotString (key : Key) (ty : TypeCode) : ErrRecord := { status := .validNotString, ty := ty, key := key }
def errKeyNotFound (key : Key) : ErrRecord := { status := .keyNotFound, key := key }
def errTableFull (key : Key) : ErrRecord := { status := .tableFull, key := key }
def errProtocol : ErrRecord := { status := .protocol }
def errIndexRange (index : BitVec 8) : ErrRecord := { status := .indexRange, index := index }
def errIllegalCmd : ErrRecord := { status := .illegalCmd }

/-! ## The port and reset -/

/-- What the host does next, and the state with that event taken from the port. -/
def takeEvent (s : State) : Option (PortEvent × State) :=
  match s.port with
  | [] => none
  | e :: rest => some (e, { s with port := rest })

/-- A command word put where the next step takes its event. -/
def presentFirst (w : CmdWord) (s : State) : State :=
  { s with port := .command w :: s.port }

/-- The architectural state of rule R180: the default table and no session. -/
def resetBlock (s : State) : State :=
  closeSession (s.withFt (defaultTable s.params.alphabet))

end Sys2Proof.Machine
end

