-- ==== Sys2Proof/Machine/RowCodec.lean ====
section
/-! DEFINITION. The Bit Row Codec, units U1 and U2: ROWENC and ROWDEC (40_row_codec.md). -/

namespace Sys2Proof.Machine

/-- `hexchar(n)`: the lowercase hex digit character of `n` (rule R81; the codes: log entry 10). -/
def hexchar (n : BitVec 4) : CharCode :=
  if n.toNat ≤ 9 then BitVec.ofNat 8 (0x30 + n.toNat) else BitVec.ofNat 8 (0x61 + (n.toNat - 10))

/-- `hexval(c)`: the value of a lowercase hex digit, `none` for every other code (rule R84). -/
def hexval (c : CharCode) : Option Nat :=
  if 0x30 ≤ c.toNat ∧ c.toNat ≤ 0x39 then some (c.toNat - 0x30)
  else if 0x61 ≤ c.toNat ∧ c.toNat ≤ 0x66 then some (c.toNat - 0x61 + 10)
  else none

/-- `encode_row(w)`: the digit of bits `[7:4]`, then that of bits `[3:0]` (rules R42, R82). -/
def encodeRow (w : Row) : RowString :=
  #v[hexchar ((rowByte w).extractLsb' 4 4), hexchar ((rowByte w).extractLsb' 0 4)]

/-- `decode_row(len, c0, c1)`: the length first, then the characters in string order (rule R85). -/
def decodeRow (len : BitVec 8) (c0 c1 : CharCode) : Except ErrRecord Row :=
  if len ≠ rowHexLen then .error (errFormatLen rowHexLen len)
  else
    match hexval c0, hexval c1 with
    | none, _ => .error (errFormatDigit rowHexLen 0)
    | some _, none => .error (errFormatDigit rowHexLen 1)
    | some h, some l => .ok (rowOfByte (BitVec.ofNat 8 (16 * h + l)))

/-- The response of ROWENC (rule R83). -/
def rowencRsp (row : BitVec 8) : Rsp :=
  { len := rowHexLen, data := stringData (encodeRow (rowOfByte row)) }

/-- The result of ROWDEC (rule R86). -/
def rowdecResult (len : BitVec 8) (chars : BitVec 16) : Except ErrRecord Rsp :=
  match decodeRow len (lane chars 0) (lane chars 1) with
  | .ok w => .ok { data := zext128 (rowByte w) }
  | .error e => .error e

/-- ROWENC (rule R83). -/
def execRowenc (row : BitVec 8) (s : State) : Host.Outcome State Fault Refusal :=
  .next (respond (rowencRsp row) s)

/-- ROWDEC (rule R86). -/
def execRowdec (len : BitVec 8) (chars : BitVec 16) (s : State) : Host.Outcome State Fault Refusal :=
  .next (answer (rowdecResult len chars) s)

end Sys2Proof.Machine
end

