-- ==== Sys2Proof/Machine/GlyphCodec.lean ====
section
/-! DEFINITION. The Glyph Codec, units U3 and U4: GLYENC and GLYDEC (41_glyph_codec.md). -/

namespace Sys2Proof.Machine

/-- `encode_glyph(g)`: chunk `k`, the characters `2k` and `2k+1`, is `encode_row(g[7-k])` (rule R100). -/
def encodeGlyph (g : Glyph) : WireString :=
  Vector.ofFn fun j => (encodeRow g[7 - j.val / 2])[j.val % 2]

/-- Chunk `k` of a wire string decoded; its error names the lengths and the index of the whole string
(rule R102). -/
def decodeChunk (s : WireString) (k : Fin 8) : Except ErrRecord Row :=
  match decodeRow rowHexLen s[2 * k.val] s[2 * k.val + 1] with
  | .ok w => .ok w
  | .error e =>
    .error { e with exp := glyphHexLen, len := glyphHexLen, index := BitVec.ofNat 8 (2 * k.val) + e.index }

/-- `decode_glyph(len, s)`: the length first, then the chunks in string order, the first failure ending
it; the rows of the wire order reversed once into memory order (rules R102, R104). -/
def decodeGlyph (len : BitVec 8) (s : WireString) : Except ErrRecord Glyph :=
  if len ≠ glyphHexLen then .error (errFormatLen glyphHexLen len)
  else do
    let w0 ← decodeChunk s 0
    let w1 ← decodeChunk s 1
    let w2 ← decodeChunk s 2
    let w3 ← decodeChunk s 3
    let w4 ← decodeChunk s 4
    let w5 ← decodeChunk s 5
    let w6 ← decodeChunk s 6
    let w7 ← decodeChunk s 7
    return #v[w7, w6, w5, w4, w3, w2, w1, w0]

/-- The response of GLYENC (rule R101). -/
def glyencRsp (image : Image) : Rsp :=
  { len := glyphHexLen, data := stringData (encodeGlyph (glyphOfImage image)) }

/-- The result of GLYDEC (rule R103). -/
def glydecResult (len : BitVec 8) (chars : BitVec 128) : Except ErrRecord Rsp :=
  match decodeGlyph len (stringChars chars) with
  | .ok g => .ok { data := zext128 (glyphImage g) }
  | .error e => .error e

/-- GLYENC (rule R101). -/
def execGlyenc (image : Image) (s : State) : Host.Outcome State Fault Refusal :=
  .next (respond (glyencRsp image) s)

/-- GLYDEC (rule R103). -/
def execGlydec (len : BitVec 8) (chars : BitVec 128) (s : State) : Host.Outcome State Fault Refusal :=
  .next (answer (glydecResult len chars) s)

end Sys2Proof.Machine
end

