-- ==== Sys2Proof/Machine/FontTable.lean ====
section
/-! DEFINITION. The Font Table, unit U5: FTINIT, FTLOOKUP, FTSETBIT, FTSTAT and FTEXPORT
(42_font_table.md). -/

namespace Sys2Proof.Machine

/-- `export_table(T)`: the entries in slot order, each glyph as its wire string (rule R127). -/
def exportTable (T : Table) : List (Key × WireString) :=
  T.map fun e => (e.key, encodeGlyph e.glyph)

/-- The result of FTLOOKUP on a table (rule R123). -/
def lookupResult (T : Table) (key : Key) : Except ErrRecord Rsp :=
  match ftFind T key with
  | none => .error (errKeyNotFound key)
  | some i =>
    .ok { key := (ftRead T i).key, index := slotCode i, data := zext128 (glyphImage (ftRead T i).glyph) }

/-- The status view: the number of entries of the live table and `imp_open` (rules R31, R126). -/
def statusView (s : State) : Rsp :=
  { index := slotCode s.ft.length, flag := s.impOpen }

/-- The result of FTEXPORT on a table (rule R128). -/
def exportResult (T : Table) (index : BitVec 8) : Except ErrRecord Rsp :=
  if h : index.toNat < T.length then
    .ok
      { key := (ftRead T ⟨index.toNat, h⟩).key
        index := index
        len := glyphHexLen
        data := stringData (encodeGlyph (ftRead T ⟨index.toNat, h⟩).glyph) }
  else .error (errIndexRange index)

/-- FTINIT (rule R121). -/
def execFtinit (s : State) : Host.Outcome State Fault Refusal :=
  .next (respond { index := slotCode s.params.alphabet.length } (resetBlock s))

/-- FTLOOKUP (rule R123). -/
def execFtlookup (key : Key) (s : State) : Host.Outcome State Fault Refusal :=
  .next (answer (lookupResult s.ft key) s)

/-- FTSETBIT (rule R125). -/
def execFtsetbit (key : Key) (row col : BitVec 3) (val : Bool) (s : State) : Host.Outcome State Fault Refusal :=
  .next
    (match ftFind s.ft key with
    | none => fail (errKeyNotFound key) s
    | some i =>
      respond { key := (ftRead s.ft i).key, index := slotCode i }
        (s.withFt (ftWrite s.ft i (setBit (ftRead s.ft i).glyph row.toFin col.toFin val))))

/-- FTSTAT (rule R126). -/
def execFtstat (s : State) : Host.Outcome State Fault Refusal :=
  .next (respond (statusView s) s)

/-- FTEXPORT (rule R128). -/
def execFtexport (index : BitVec 8) (s : State) : Host.Outcome State Fault Refusal :=
  .next (answer (exportResult s.ft index) s)

end Sys2Proof.Machine
end

