-- ==== Sys2Proof/Machine/Import.lean ====
section
/-! DEFINITION. The import session, unit U5: FTIMPBEGIN, FTIMPENTRY and FTIMPCOMMIT, and the pure function
`import_table` that a session computes (43_font_table_import.md). -/

namespace Sys2Proof.Machine

/-- A decoded member put into a table under construction: a repeated key keeps its slot and takes the
later glyph, a new key takes the next slot, unless `cap` slots are taken (rules R141, R143, R144, R146;
the comparison: log entry 9). -/
def placeGlyph (cap : Nat) (T : Table) (key : Key) (g : Glyph) : Except ErrRecord Table :=
  match ftFind T key with
  | some j => .ok (ftWrite T j g)
  | none => if T.length = cap then .error (errTableFull key) else .ok (ftAppend T key g)

/-- One member whose value is a string, decoded and placed; an error of the codec carries the member's
key (rules R141, R146). -/
def stageString (cap : Nat) (m : Member) (T : Table) : Except ErrRecord Table :=
  match decodeGlyph m.len (stringChars m.chars) with
  | .error e => .error { e with key := m.key }
  | .ok g => placeGlyph cap T m.key g

/-- Step 3 of `import_table`: the members in order, the first failure aborting (rule R141). -/
def importEntries (cap : Nat) : List Member → Table → Except ErrRecord Table
  | [], T => .ok T
  | m :: E, T =>
    match stageString cap m T with
    | .error e => .error e
    | .ok T' => importEntries cap E T'

/-- `import_table(top, E)`: the top-level value an object, then every value a string, then every string
decoded (rule R141). -/
def importTable (cap : Nat) (top : TypeCode) (E : List Member) : Except ErrRecord Table :=
  if top ≠ typeObject then .error (errNotObject top)
  else
    match E.find? fun m => m.ty != typeString with
    | some m => .error (errNotString m.key m.ty)
    | none => importEntries cap E []

/-- What one member does to the staging table and the pending error (rule R146): the first non-string
member's record is kept for good, it replaces any other record, and once there is a record no string is
looked at. -/
def stageMember (cap : Nat) (m : Member) (st : Table) (err : Option ErrRecord) : Table × Option ErrRecord :=
  match err with
  | some e =>
    if e.status = .validNotString then (st, some e)
    else if m.ty ≠ typeString then (st, some (errNotString m.key m.ty))
    else (st, some e)
  | none =>
    if m.ty ≠ typeString then (st, some (errNotString m.key m.ty))
    else
      match stageString cap m st with
      | .error e => (st, some e)
      | .ok T => (T, none)

/-- FTIMPBEGIN (rule R145). -/
def execFtimpbegin (ty : TypeCode) (s : State) : Host.Outcome State Fault Refusal :=
  .next
    (if ty ≠ typeObject then fail (errNotObject ty) (closeSession s)
    else respond { flag := true } (openSession s))

/-- FTIMPENTRY (rule R146). -/
def execFtimpentry (key : Key) (ty : TypeCode) (len : BitVec 8) (chars : BitVec 128) (s : State) :
    Host.Outcome State Fault Refusal :=
  .next
    (if s.impOpen then
      let staged := stageMember s.params.tableCap { key := key, ty := ty, len := len, chars := chars } s.st s.impErr
      respond { flag := true } (s.withSession true staged.1 staged.2)
    else fail errProtocol s)

/-- FTIMPCOMMIT (rule R147). -/
def execFtimpcommit (s : State) : Host.Outcome State Fault Refusal :=
  .next
    (if s.impOpen then
      match s.impErr with
      | none => respond { index := slotCode s.st.length } (closeSession (s.withFt s.st))
      | some e => fail e (closeSession s)
    else fail errProtocol s)

end Sys2Proof.Machine
end

