-- ==== Sys2Proof/Machine/Reserved.lean ====
section
/-! DEFINITION. The four reserved opcodes 0xC to 0xF: an illegal command, which answers ILLEGAL_CMD and
changes nothing (rule R64). -/

namespace Sys2Proof.Machine

/-- The illegal command (rules R64, R161). -/
def illegal (s : State) : State :=
  fail errIllegalCmd s

/-- RESERVED_C, opcode 0xC (rule R64). -/
def execReservedC (s : State) : Host.Outcome State Fault Refusal :=
  .next (illegal s)

/-- RESERVED_D, opcode 0xD (rule R64). -/
def execReservedD (s : State) : Host.Outcome State Fault Refusal :=
  .next (illegal s)

/-- RESERVED_E, opcode 0xE (rule R64). -/
def execReservedE (s : State) : Host.Outcome State Fault Refusal :=
  .next (illegal s)

/-- RESERVED_F, opcode 0xF (rule R64). -/
def execReservedF (s : State) : Host.Outcome State Fault Refusal :=
  .next (illegal s)

end Sys2Proof.Machine
end

