-- ==== Sys2Proof/Machine/Dispatch.lean ====
section
/-! DEFINITION. The meaning of each instruction: one arm per constructor of Instr. -/

namespace Sys2Proof.Machine

def exec (i : Instr) (s : State) : Host.Outcome State Fault Refusal :=
  match i with
  | .rowenc row => Sys2Proof.Machine.execRowenc row s
  | .rowdec len chars => Sys2Proof.Machine.execRowdec len chars s
  | .glyenc image => Sys2Proof.Machine.execGlyenc image s
  | .glydec len chars => Sys2Proof.Machine.execGlydec len chars s
  | .ftinit => Sys2Proof.Machine.execFtinit s
  | .ftlookup key => Sys2Proof.Machine.execFtlookup key s
  | .ftsetbit key row col val => Sys2Proof.Machine.execFtsetbit key row col val s
  | .ftstat => Sys2Proof.Machine.execFtstat s
  | .ftexport index => Sys2Proof.Machine.execFtexport index s
  | .ftimpbegin ty => Sys2Proof.Machine.execFtimpbegin ty s
  | .ftimpentry key ty len chars => Sys2Proof.Machine.execFtimpentry key ty len chars s
  | .ftimpcommit => Sys2Proof.Machine.execFtimpcommit s
  | .reservedC => Sys2Proof.Machine.execReservedC s
  | .reservedD => Sys2Proof.Machine.execReservedD s
  | .reservedE => Sys2Proof.Machine.execReservedE s
  | .reservedF => Sys2Proof.Machine.execReservedF s

end Sys2Proof.Machine
end

