-- ==== Sys2Proof/Machine/Events.lean ====
section
/-! DEFINITION. What the block does at the port when the event is no command: the reset event (rule
R180), and no event at all. -/

namespace Sys2Proof.Machine

/-- The reset event (rule R180): the block's state is that of reset whatever it was before, in the middle
of an import session too. There is no response to a reset (rule R33). Log entry 5. -/
def execResetEvent (s : State) : Host.Outcome State Fault Refusal :=
  .next (resetBlock s)

/-- No event: the block waits and nothing changes (rule R163: "It speaks only when spoken to"). Log entry
4. -/
def execIdle (s : State) : Host.Outcome State Fault Refusal :=
  .next s

end Sys2Proof.Machine
end

