-- ==== Sys2Proof/Machine/Step.lean ====
section
/-! DEFINITION. One step of the block: the next event of the port, executed to its response (rules R3,
R29, R49). -/

namespace Sys2Proof.Machine

/-- One step: a command word is decoded and executed, a reset resets, and with nothing at the port the
block waits. -/
def step (s : State) : Host.Outcome State Fault Refusal :=
  match takeEvent s with
  | none => execIdle s
  | some (.reset, t) => execResetEvent t
  | some (.command w, t) => exec (decode w) t

/-- The state with an opcode table word as the command the very next step runs. The host presents it
before everything it was going to do (log entry 4). -/
def State.withFetchWord (s : State) (nbits w : Nat) : State :=
  presentFirst (tableWord nbits w) s

end Sys2Proof.Machine
end

