-- ==== Sys2Proof/Machine/Script.lean ====
section
/-! DEFINITION. The host's side of the port, where the spec fixes it: how a string is presented (rule
R65), the script commands that take a string (rule R71), and the pseudo-commands IMPORT, EXPORT and BLANK
(rule R72). -/

namespace Sys2Proof.Machine

/-! ## Strings (rule R65) -/

/-- The 8-bit code of a character: 0xFF for a code point above U+00FF (rule R65). -/
def charCode (c : Char) : CharCode :=
  if c.toNat ≤ 0xFF then BitVec.ofNat 8 c.toNat else 0xFF

/-- `len`: the number of characters, 255 for more than 255 (rule R65). DESIGN CHOICE, log entry 12: one
character for each code point. -/
def presentLen (t : List Char) : BitVec 8 :=
  BitVec.ofNat 8 (min t.length 255)

/-- `data`: the first sixteen characters in their lanes (rule R65), lanes without one zero (DEDUCED from
rule R71). Log entry 12. -/
def presentChars (t : List Char) : BitVec 128 :=
  packLanes ((t.take 16).map charCode)

/-! ## Script commands with a string operand (rule R71) -/

def scriptRowdec (t : List Char) : Instr :=
  .rowdec (presentLen t) ((presentChars t).setWidth 16)

def scriptGlydec (t : List Char) : Instr :=
  .glydec (presentLen t) (presentChars t)

/-- A member whose value is a string (rules R71, R140). -/
def stringMember (key : Key) (t : List Char) : Member :=
  { key := key, ty := typeString, len := presentLen t, chars := presentChars t }

/-- A member whose value is no string (rules R71, R140). -/
def otherMember (key : Key) (ty : TypeCode) : Member :=
  { key := key, ty := ty, len := 0, chars := 0 }

/-- `FTIMPENTRY <key>, <type name>[, <string>]` for a member (rules R71, R72). -/
def entryCommand (m : Member) : Instr :=
  .ftimpentry m.key m.ty m.len m.chars

/-! ## Pseudo-commands (rule R72) -/

/-- The host issues one command and reads its response. -/
def issue (i : Instr) (s : State) : Host.Outcome (State × RspWord) Fault Refusal :=
  match exec i s with
  | .next t => .next (t, t.rsps.getLast?.getD 0)
  | .fault r => .fault r
  | .refused r => .refused r

/-- The host issues `i` and then `rest`, up to the first response that is not OK; the result is that
response, or the last one. -/
def issueUntilError (i : Instr) (rest : List Instr) (s : State) : Host.Outcome (State × RspWord) Fault Refusal :=
  match rest, issue i s with
  | j :: rest', .next (t, r) => if rspStatus r = statusCode .ok then issueUntilError j rest' t else .next (t, r)
  | [], .next tr => .next tr
  | _, .fault r => .fault r
  | _, .refused r => .refused r

/-- `IMPORT <type> (members)` (rule R72). -/
def pseudoImport (top : TypeCode) (E : List Member) (s : State) : Host.Outcome (State × RspWord) Fault Refusal :=
  issueUntilError (.ftimpbegin top) (E.map entryCommand ++ [.ftimpcommit]) s

/-- The `FTEXPORT i` of `EXPORT`, for `n` slots from slot `i` on: the keys and the strings of the
responses in order. -/
def exportFrom : Nat → Nat → State → Host.Outcome (State × List (Key × WireString)) Fault Refusal
  | 0, _, s => .next (s, [])
  | n + 1, i, s =>
    match issue (.ftexport (slotCode i)) s with
    | .next (t, r) =>
      match exportFrom n (i + 1) t with
      | .next (u, rows) => .next (u, (rspKey r, stringChars (rspData r)) :: rows)
      | .fault e => .fault e
      | .refused e => .refused e
    | .fault e => .fault e
    | .refused e => .refused e

/-- `EXPORT`: `FTSTAT`, then `FTEXPORT i` for `i` = 0 to `count - 1` (rule R72). -/
def pseudoExport (s : State) : Host.Outcome (State × List (Key × WireString)) Fault Refusal :=
  match issue .ftstat s with
  | .next (t, r) => exportFrom (rspIndex r).toNat 0 t
  | .fault e => .fault e
  | .refused e => .refused e

/-- The 64 positions of a glyph, row by row. -/
def allPixels : List (BitVec 3 × BitVec 3) :=
  (List.range 64).map fun n => (BitVec.ofNat 3 (n / 8), BitVec.ofNat 3 (n % 8))

/-- `BLANK <key>`: sixty-four `FTSETBIT <key>, r, c, 0`, stopping at the first response that is not OK
(rule R72). -/
def pseudoBlank (key : Key) (s : State) : Host.Outcome (State × RspWord) Fault Refusal :=
  issueUntilError (.ftsetbit key 0 0 false)
    (allPixels.tail.map fun rc => .ftsetbit key rc.1 rc.2 false) s

end Sys2Proof.Machine
end

