-- ==== Sys2Proof/WellFormed.lean ====
section
/-! DEFINITION. What the spec requires of the model's inputs. An instruction needs no check of its own:
every field of `Instr` has exactly the width of its field in the command word, every value of every field
is legal (rules R46, R48, R65), and the fields a command does not read are no part of it (rule R63), so
every term of `Instr` is well formed. The parameters (rule R4) and a payload (rule R140) are checked. -/

namespace Sys2Proof

/-- The parameters meet the constraints of rule R4: the alphabet is distinct, holds `KNOWN66` and fits,
and `TABLE_CAP` is at most 255. -/
abbrev Config.Params.wf (p : Config.Params) : Prop :=
  Config.alphabetOk p.tableCap p.alphabet ∧ p.tableCap ≤ 255

/-- Rule R140: "When `top` is not OBJECT, `E` is empty" (OBJECT is type code 0, rule R67). -/
abbrev Payload.wf (p : Payload) : Prop :=
  p.top ≠ 0 → p.members = []

end Sys2Proof
end

