-- ==== Sys2Proof/Safety.lean ====
section
/-! DEFINITION. What counts as a safe state of the block: the invariants the spec says every rule
preserves (rules R25, R27), in the terms the statements use. -/

namespace Sys2Proof.Machine

/-- A record that an import session can hold (rules R27, R141, R146): one of the four errors of a member,
with the fields rule R161 gives it and the others zero. -/
abbrev sessionError (e : ErrRecord) : Prop :=
  (e.status = .validNotString ∧ e.ty ≠ typeString ∧ e.exp = 0 ∧ e.len = 0 ∧ e.index = 0)
  ∨ (e.status = .formatLen ∧ e.ty = 0 ∧ e.exp = glyphHexLen ∧ e.len ≠ glyphHexLen ∧ e.index = 0)
  ∨ (e.status = .formatDigit ∧ e.ty = 0 ∧ e.exp = glyphHexLen ∧ e.len = glyphHexLen ∧ e.index.toNat < 16)
  ∨ (e.status = .tableFull ∧ e.ty = 0 ∧ e.exp = 0 ∧ e.len = 0 ∧ e.index = 0)

/-- Rule R27: "When `imp_open = 0`, `ST` is empty and `imp_err = none`"; and a record that is held is one
an import can report. -/
abbrev State.sessionOk (s : State) : Prop :=
  (s.impOpen = false → s.st = [] ∧ s.impErr = none) ∧ (∀ e ∈ s.impErr, sessionError e)

/-- The invariant of the machine: admissible parameters (rule R4), both tables well formed (rules R25,
R27), and the session's fields legal (rule R27). -/
abbrev State.Inv (s : State) : Prop :=
  s.params.wf ∧ Table.wf s.params.tableCap s.ft ∧ Table.wf s.params.tableCap s.st ∧ s.sessionOk

/-! ## The terms of the statements -/

/-- Commands executed one after another, each from the state the one before it left (rule R49). -/
def execSeq : List Instr → State → Host.Outcome State Fault Refusal
  | [], s => .next s
  | i :: is, s =>
    match exec i s with
    | .next t => execSeq is t
    | .fault r => .fault r
    | .refused r => .refused r

/-- The member of the payload an FTIMPENTRY presents (rule R140); no other command presents one. -/
def presentedMember : Instr → Option Member
  | .ftimpentry key ty len chars => some { key := key, ty := ty, len := len, chars := chars }
  | _ => none

/-- The bits of the command word that a command reads: `op` and the fields of rule R62, column "fields
read", at their positions in rule R60. -/
def bitsRead (op : BitVec 4) : CmdWord :=
  0xF |||
    match op.toNat with
    | 0x0 => 0xFF <<< 56
    | 0x1 => 0xFF <<< 16 ||| 0xFFFF <<< 56
    | 0x2 => 0xFFFFFFFFFFFFFFFF <<< 56
    | 0x3 => 0xFF <<< 16 ||| 0xFFFFFFFFFFFFFFFFFFFFFFFFFFFFFFFF <<< 56
    | 0x5 => 0x1FFFFF <<< 32
    | 0x6 => 0x1FFFFF <<< 32 ||| 0x7 <<< 11 ||| 0x7 <<< 8 ||| 0x1 <<< 7
    | 0x8 => 0xFF <<< 24
    | 0x9 => 0x7 <<< 4
    | 0xA => 0x1FFFFF <<< 32 ||| 0x7 <<< 4 ||| 0xFF <<< 16 ||| 0xFFFFFFFFFFFFFFFFFFFFFFFFFFFFFFFF <<< 56
    | _ => 0

/-- The statuses a command can answer with (rule R161, column "raised by", and its closing sentences). -/
def statusesOf : Instr → List Status
  | .rowenc _ => [.ok]
  | .rowdec _ _ => [.ok, .formatLen, .formatDigit]
  | .glyenc _ => [.ok]
  | .glydec _ _ => [.ok, .formatLen, .formatDigit]
  | .ftinit => [.ok]
  | .ftlookup _ => [.ok, .keyNotFound]
  | .ftsetbit _ _ _ _ => [.ok, .keyNotFound]
  | .ftstat => [.ok]
  | .ftexport _ => [.ok, .indexRange]
  | .ftimpbegin _ => [.ok, .validNotObject]
  | .ftimpentry _ _ _ _ => [.ok, .protocol]
  | .ftimpcommit => [.ok, .formatLen, .formatDigit, .validNotString, .tableFull, .protocol]
  | .reservedC | .reservedD | .reservedE | .reservedF => [.illegalCmd]

end Sys2Proof.Machine
end

