-- ==== Sys2Proof/Certificates/Slice0/Obligations.lean ====
section
/-! DEFINITION. The statements about the block, for the provers. Each docstring names the rule it
formalises. -/

open Sys2Proof Sys2Proof.Machine

/-! ## The command and response words -/

/-- Rules R60, R62: no bit of an encoding is dropped; the encoder's word of every instruction decodes to
that instruction. -/
def Obligations.DecodeOfEncodeIsTheInstruction : Prop :=
  ∀ i : Instr, decode (encode i) = i

/-- Rule R62: each of the sixteen opcodes, as `w & mask == match` with `mask = 0xF`, selects its row of
the table, with the fields read at their bit positions of rule R60. -/
def Obligations.OpcodeSelectsTheCommandAndItsFields : Prop :=
  ∀ w : CmdWord,
    (w &&& 0xF = 0x0 → decode w = .rowenc (w.extractLsb' 56 8)) ∧
    (w &&& 0xF = 0x1 → decode w = .rowdec (w.extractLsb' 16 8) (w.extractLsb' 56 16)) ∧
    (w &&& 0xF = 0x2 → decode w = .glyenc (w.extractLsb' 56 64)) ∧
    (w &&& 0xF = 0x3 → decode w = .glydec (w.extractLsb' 16 8) (w.extractLsb' 56 128)) ∧
    (w &&& 0xF = 0x4 → decode w = .ftinit) ∧
    (w &&& 0xF = 0x5 → decode w = .ftlookup (w.extractLsb' 32 21)) ∧
    (w &&& 0xF = 0x6 →
      decode w = .ftsetbit (w.extractLsb' 32 21) (w.extractLsb' 11 3) (w.extractLsb' 8 3) (w.getLsbD 7)) ∧
    (w &&& 0xF = 0x7 → decode w = .ftstat) ∧
    (w &&& 0xF = 0x8 → decode w = .ftexport (w.extractLsb' 24 8)) ∧
    (w &&& 0xF = 0x9 → decode w = .ftimpbegin (w.extractLsb' 4 3)) ∧
    (w &&& 0xF = 0xA →
      decode w = .ftimpentry (w.extractLsb' 32 21) (w.extractLsb' 4 3) (w.extractLsb' 16 8) (w.extractLsb' 56 128)) ∧
    (w &&& 0xF = 0xB → decode w = .ftimpcommit) ∧
    (w &&& 0xF = 0xC → decode w = .reservedC) ∧
    (w &&& 0xF = 0xD → decode w = .reservedD) ∧
    (w &&& 0xF = 0xE → decode w = .reservedE) ∧
    (w &&& 0xF = 0xF → decode w = .reservedF)

/-- Rule R63: two words with the same bits in the fields their command reads are the same command; the
response and the next state are the same. -/
def Obligations.UnreadBitsChangeNothing : Prop :=
  ∀ w w' : CmdWord,
    w &&& bitsRead (w.extractLsb' 0 4) = w' &&& bitsRead (w.extractLsb' 0 4) →
    decode w = decode w' ∧
    ∀ (s : State) (rest : List PortEvent),
      step { s with port := .command w :: rest } = step { s with port := .command w' :: rest }

/-- Nine words written out in 95_test_vectors.md decode to the commands of their script lines (rules R60,
R62): four of program P1, two of P2, one each of P3, P4 and P5, the last a word with a reserved opcode. -/
def Obligations.TestVectorWordsDecode : Prop :=
  decode 0x0000000000000000000000000000008100000000000000 = .rowenc 0x81 ∧
  decode 0x0000000000000000000000000000473800000000020001 = .rowdec 2 0x4738 ∧
  decode 0x0000000000000000183c666666667e6600000000000002 = .glyenc 0x183c666666667e66 ∧
  decode 0x3636653736363636363636366333383100000000100003 = .glydec 16 0x36366537363636363636363663333831 ∧
  decode 0x0000000000000000000000000000000000004100001a86 = .ftsetbit 0x41 3 2 true ∧
  decode 0x000000000000000000000000000000000000001a000008 = .ftexport 26 ∧
  decode 0x363665373636363636363636633338310000410010002a
    = .ftimpentry 0x41 typeString 16 0x36366537363636363636363663333831 ∧
  decode 0x000000000000000000000000000000000000420000003a = .ftimpentry 0x42 typeNumber 0 0 ∧
  decode 0x000000000000000000000000000000000000000000000c = .reservedC

/-- Rule R61: every field of a response stands at its bit position, and bits `[55:53]` are zero. -/
def Obligations.ResponseFieldsStandAtTheirBits : Prop :=
  ∀ r : Rsp,
    rspStatus (rspWord r) = statusCode r.status ∧ rspType (rspWord r) = r.ty ∧ rspFlag (rspWord r) = r.flag ∧
    rspExp (rspWord r) = r.exp ∧ rspLen (rspWord r) = r.len ∧ rspIndex (rspWord r) = r.index ∧
    rspKey (rspWord r) = r.key ∧ (rspWord r).extractLsb' 53 3 = 0 ∧ rspData (rspWord r) = r.data

/-- Rule R68: the status numbers, and no command ever answers with a number from 0x9 to 0xE. -/
def Obligations.StatusNumbersAndUnusedOnes : Prop :=
  (statusCode .ok = 0x0 ∧ statusCode .formatLen = 0x1 ∧ statusCode .formatDigit = 0x2 ∧
    statusCode .validNotObject = 0x3 ∧ statusCode .validNotString = 0x4 ∧ statusCode .keyNotFound = 0x5 ∧
    statusCode .tableFull = 0x6 ∧ statusCode .protocol = 0x7 ∧ statusCode .indexRange = 0x8 ∧
    statusCode .illegalCmd = 0xF) ∧
  ∀ (i : Instr) (s t : State) (w : RspWord), exec i s = .next t → t.rsps = s.rsps ++ [w] →
    ¬(0x9 ≤ (rspStatus w).toNat ∧ (rspStatus w).toNat ≤ 0xE)

/-! ## The step -/

/-- With a command word first at the port, a step takes it from the port and executes the instruction it
decodes to. The port queue is the model's (log entry 4). -/
def Obligations.StepExecutesTheDecodedCommand : Prop :=
  ∀ (s : State) (w : CmdWord) (rest : List PortEvent), s.port = .command w :: rest →
    step s = exec (decode w) { s with port := rest }

/-- With a reset first at the port, a step leaves the block in the state of rule R180, whatever it was
before, and sends no response. That reset is an event of the port is the model's choice (log entry 5). -/
def Obligations.StepTakesAReset : Prop :=
  ∀ (s : State) (rest : List PortEvent), s.port = .reset :: rest →
    step s = .next
      { s with
        ft := s.params.alphabet.map (fun k => { key := k, glyph := blankGlyph })
        impOpen := false
        st := []
        impErr := none
        port := rest }

/-- With nothing at the port a step changes nothing: the model's choice (log entry 4), resting on rule
R163's "It speaks only when spoken to". -/
def Obligations.StepWithoutACommandChangesNothing : Prop :=
  ∀ s : State, s.port = [] → step s = .next s

/-- Rules R29, R49: the commands at the port take effect one at a time in the order they were presented,
each on the state the one before it left. -/
def Obligations.RunExecutesTheCommandsInOrder : Prop :=
  ∀ (is : List Instr) (s : State) (rest : List PortEvent),
    s.port = is.map (fun i => PortEvent.command (encode i)) ++ rest →
    Host.Core.run Sys2Proof.core is.length s = execSeq is { s with port := rest }

/-- Rules R3, R166: every command, in every state, completes and sends exactly one response; it leaves
the parameters and the rest of the port alone. And a step never stops the block. -/
def Obligations.EveryCommandCompletesWithOneResponse : Prop :=
  (∀ (i : Instr) (s : State), ∃ (t : State) (w : RspWord),
    exec i s = .next t ∧ t.rsps = s.rsps ++ [w] ∧ t.params = s.params ∧ t.port = s.port) ∧
  ∀ s : State, ∃ t : State, step s = .next t ∧ t.params = s.params

/-- Rule R165: a command that answers with a non-OK status changes no architectural state, but for an
FTIMPBEGIN that answers VALID_NOT_OBJECT and an FTIMPCOMMIT that answers a recorded error, which close
and empty the session; the live table is never changed. -/
def Obligations.FailedCommandChangesNoState : Prop :=
  ∀ (i : Instr) (s t : State) (w : RspWord), exec i s = .next t → t.rsps = s.rsps ++ [w] →
    rspStatus w ≠ statusCode .ok →
    t = { s with rsps := s.rsps ++ [w] } ∨
    (t = { s with impOpen := false, st := [], impErr := none, rsps := s.rsps ++ [w] } ∧
      ((∃ ty, i = .ftimpbegin ty ∧ rspStatus w = statusCode .validNotObject) ∨
        (i = .ftimpcommit ∧ s.impOpen = true ∧ ∃ e, s.impErr = some e ∧ w = rspWord (errorRsp e))))

/-- Rule R69: a response whose status is not OK has an all-zero `data`. -/
def Obligations.FailedResponseCarriesNoData : Prop :=
  ∀ (i : Instr) (s t : State) (w : RspWord), exec i s = .next t → t.rsps = s.rsps ++ [w] →
    rspStatus w ≠ statusCode .ok → rspData w = 0

/-- Rule R161: which commands can answer with which statuses, in every state whose session is legal. -/
def Obligations.CommandAnswersOnlyItsStatuses : Prop :=
  ∀ (i : Instr) (s t : State) (w : RspWord), s.sessionOk → exec i s = .next t → t.rsps = s.rsps ++ [w] →
    ∃ st ∈ statusesOf i, rspStatus w = statusCode st

/-! ## The invariant and reset -/

/-- Rules R25, R27, R4: every step keeps admissible parameters, distinct keys within the capacity in both
tables, and a legal session. -/
def Obligations.StepKeepsTheInvariant : Prop :=
  ∀ s t : State, s.Inv → step s = .next t → t.Inv

/-- The state after reset meets the invariant. -/
def Obligations.ResetMeetsTheInvariant : Prop :=
  State.reset.Inv

/-- Rule R33: the reset value of every piece of state; no response precedes the first command. -/
def Obligations.ResetStateIsTheDefaultTable : Prop :=
  State.reset.ft = State.reset.params.alphabet.map (fun k => { key := k, glyph := blankGlyph }) ∧
  State.reset.impOpen = false ∧ State.reset.st = [] ∧ State.reset.impErr = none ∧
  exec .ftstat State.reset =
    .next { State.reset with
      rsps := [rspWord { index := BitVec.ofNat 8 State.reset.params.alphabet.length, flag := false }] } ∧
  State.reset.rsps = []

/-- Vector V8 of 95_test_vectors.md, for every instance of the block: where the live table is the default
table of admissible parameters (rules R4, R120), every key the source names is found, at its slot of the
default alphabet, with a blank glyph; and the reset state is such a state. -/
def Obligations.ResetHoldsEveryKnownKeyBlank : Prop :=
  (∀ s : State, s.params.wf → s.ft = defaultTable s.params.alphabet →
    ∀ k ∈ Config.known66, ∃ n, s.params.alphabet[n]? = some k ∧
      exec (.ftlookup k) s =
        .next { s with rsps := s.rsps ++ [rspWord { key := k, index := BitVec.ofNat 8 n, data := 0 }] }) ∧
  State.reset.params.wf ∧ State.reset.ft = defaultTable State.reset.params.alphabet

/-- Rules R121, R180: the architectural state FTINIT leaves is the one reset leaves, and FTINIT twice
leaves the state of FTINIT once. -/
def Obligations.FtinitLeavesTheResetState : Prop :=
  ∀ s t : State, exec .ftinit s = .next t →
    (s.params = Config.resetParams → { t with port := [], rsps := [] } = State.reset) ∧
    ∃ u, exec .ftinit t = .next u ∧ { u with rsps := t.rsps } = t

/-! ## The bit row codec -/

/-- Rules R22, R80: sequence index 0 of a Row is the most significant bit of its row byte, the row byte
is `row_value`, and every row byte is that of exactly its Row. -/
def Obligations.RowByteIsMostSignificantBitFirst : Prop :=
  (∀ (w : Row) (i : Fin 8), (rowByte w).getLsbD (7 - i) = w[i]) ∧
  (∀ w : Row, rowValue w = ∑ i : Fin 8, (w[i]).toNat * 2 ^ (7 - i.val)) ∧
  (∀ w : Row, (rowByte w).toNat = rowValue w ∧ rowValue w ≤ 255) ∧
  (∀ w : Row, rowOfByte (rowByte w) = w) ∧
  (∀ b : BitVec 8, rowByte (rowOfByte b) = b) ∧
  rowByte #v[true, false, false, false, false, false, false, true] = 0x81

/-- Rule R81: the digit characters. -/
def Obligations.HexcharIsTheLowercaseDigit : Prop :=
  ∀ n : BitVec 4,
    (n.toNat ≤ 9 → (hexchar n).toNat = 0x30 + n.toNat) ∧
    (10 ≤ n.toNat → (hexchar n).toNat = 0x61 + (n.toNat - 10))

/-- Rule R84: `hexval` has a value for the sixteen lowercase digits and for no other code: not for the
uppercase letters, the space, `x`, `+`, `-` or any code from 0x80 up. -/
def Obligations.HexvalKnowsOnlyLowercaseDigits : Prop :=
  ∀ c : CharCode,
    (0x30 ≤ c.toNat ∧ c.toNat ≤ 0x39 → hexval c = some (c.toNat - 0x30)) ∧
    (0x61 ≤ c.toNat ∧ c.toNat ≤ 0x66 → hexval c = some (c.toNat - 0x61 + 10)) ∧
    (¬(0x30 ≤ c.toNat ∧ c.toNat ≤ 0x39) → ¬(0x61 ≤ c.toNat ∧ c.toNat ≤ 0x66) → hexval c = none) ∧
    (∀ v, hexval c = some v ↔ v < 16 ∧ hexchar (BitVec.ofNat 4 v) = c)

/-- Rule R87: the two halves of the row round trip, and the bijection between Rows and strings of two
lowercase hex digits. -/
def Obligations.RowCodecRoundTrips : Prop :=
  (∀ w : Row, decodeRow 2 (encodeRow w)[0] (encodeRow w)[1] = .ok w) ∧
  (∀ c0 c1 : CharCode, hexval c0 ≠ none → hexval c1 ≠ none →
    ∃ w, decodeRow 2 c0 c1 = .ok w ∧ encodeRow w = #v[c0, c1]) ∧
  (∀ str : RowString, (hexval str[0] ≠ none ∧ hexval str[1] ≠ none) ↔ ∃! w, encodeRow w = str)

/-- Rule R83: ROWENC answers the two digits of its row byte, the digit of bits `[7:4]` in lane 0 and that
of bits `[3:0]` in lane 1, with `len` = 2; the state is unchanged. -/
def Obligations.RowencAnswersTheTwoDigits : Prop :=
  ∀ (b : BitVec 8) (s : State),
    exec (.rowenc b) s =
      .next { s with
        rsps := s.rsps ++
          [rspWord { len := 2, data := (hexchar (b.extractLsb' 0 4) ++ hexchar (b.extractLsb' 4 4)).setWidth 128 }] }

/-- Rule R86: ROWDEC tests the length, then the characters in string order, and answers the row byte
`16 * hexval(c0) + hexval(c1)`; the state is unchanged. -/
def Obligations.RowdecAnswersTheRowByteOrTheFirstError : Prop :=
  ∀ (len : BitVec 8) (chars : BitVec 16) (s : State),
    (len ≠ 2 →
      exec (.rowdec len chars) s =
        .next { s with rsps := s.rsps ++ [rspWord { status := .formatLen, exp := 2, len := len }] }) ∧
    (len = 2 → hexval (chars.extractLsb' 0 8) = none →
      exec (.rowdec len chars) s =
        .next { s with rsps := s.rsps ++ [rspWord { status := .formatDigit, exp := 2, len := 2, index := 0 }] }) ∧
    (len = 2 → hexval (chars.extractLsb' 0 8) ≠ none → hexval (chars.extractLsb' 8 8) = none →
      exec (.rowdec len chars) s =
        .next { s with rsps := s.rsps ++ [rspWord { status := .formatDigit, exp := 2, len := 2, index := 1 }] }) ∧
    (∀ h l, len = 2 → hexval (chars.extractLsb' 0 8) = some h → hexval (chars.extractLsb' 8 8) = some l →
      exec (.rowdec len chars) s =
        .next { s with rsps := s.rsps ++ [rspWord { data := BitVec.ofNat 128 (16 * h + l) }] })

/-! ## The glyph codec -/

/-- Rule R24: the blank glyph has all bits false, and its image is the 64-bit zero. -/
def Obligations.BlankGlyphIsTheZeroImage : Prop :=
  (∀ r c : Fin 8, blankGlyph[r][c] = false) ∧ glyphImage blankGlyph = 0

/-- Rule R23: row `r` stands in byte lane `r` of the image, the Bit `(r, c)` is image bit `8*r + 7 - c`,
and Glyphs and images correspond one to one. -/
def Obligations.GlyphImageHoldsBitRCAtItsPlace : Prop :=
  (∀ (g : Glyph) (r : Fin 8), (glyphImage g).extractLsb' (8 * r) 8 = rowByte g[r]) ∧
  (∀ (g : Glyph) (r c : Fin 8), (glyphImage g).getLsbD (8 * r + 7 - c) = g[r][c]) ∧
  (∀ g : Glyph, glyphOfImage (glyphImage g) = g) ∧
  (∀ G : Image, glyphImage (glyphOfImage G) = G)

/-- Rule R100: chunk `k` of the wire string is the row form of memory row `7-k`. -/
def Obligations.EncodeGlyphPutsTheBottomRowFirst : Prop :=
  ∀ (g : Glyph) (k : Fin 8),
    (encodeGlyph g)[2 * k.val] = (encodeRow g[7 - k.val])[0] ∧
    (encodeGlyph g)[2 * k.val + 1] = (encodeRow g[7 - k.val])[1]

/-- Rule R102: the length first; then the chunks in string order, the first failure ending the decoding
with the string index of the bad character; and on success chunk `k` is the row at memory index `7-k`. -/
def Obligations.DecodeGlyphTakesChunksInStringOrder : Prop :=
  ∀ (len : BitVec 8) (str : WireString),
    (len ≠ 16 → decodeGlyph len str = .error { status := .formatLen, exp := 16, len := len }) ∧
    (∀ (k : Fin 8) (e : ErrRecord), len = 16 →
      (∀ j : Fin 8, j < k → ∃ w, decodeRow 2 str[2 * j.val] str[2 * j.val + 1] = .ok w) →
      decodeRow 2 str[2 * k.val] str[2 * k.val + 1] = .error e →
      decodeGlyph len str =
        .error { status := .formatDigit, exp := 16, len := 16, index := BitVec.ofNat 8 (2 * k.val + e.index.toNat) }) ∧
    (∀ g : Glyph, len = 16 →
      (∀ k : Fin 8, decodeRow 2 str[2 * k.val] str[2 * k.val + 1] = .ok g[7 - k.val]) →
      decodeGlyph len str = .ok g)

/-- Rule R107: every error of `decode_glyph` names the glyph's length 16; the row-level FORMAT_LEN never
comes out of it. -/
def Obligations.RowLevelLengthErrorNeverLeavesTheGlyphDecoder : Prop :=
  ∀ (len : BitVec 8) (str : WireString) (e : ErrRecord), decodeGlyph len str = .error e →
    e.exp = 16 ∧ e.ty = 0 ∧ e.key = 0 ∧
    ((e.status = .formatLen ∧ e.len = len ∧ len ≠ 16 ∧ e.index = 0) ∨
      (e.status = .formatDigit ∧ e.len = 16 ∧ len = 16 ∧ e.index.toNat < 16))

/-- Rule R105: Round-trip A and Round-trip B, and the bijection between Glyphs and strings of sixteen
lowercase hex digits. -/
def Obligations.GlyphCodecRoundTrips : Prop :=
  (∀ str : WireString, (∀ j : Fin 16, hexval str[j] ≠ none) →
    ∃ g, decodeGlyph 16 str = .ok g ∧ encodeGlyph g = str) ∧
  (∀ g : Glyph, decodeGlyph 16 (encodeGlyph g) = .ok g) ∧
  (∀ str : WireString, (∀ j : Fin 16, hexval str[j] ≠ none) ↔ ∃! g, encodeGlyph g = str)

/-- Rule R106: character `j` of a wire string is the digit of nibble `[63-4j : 60-4j]` of the image, and
back. -/
def Obligations.WireStringSpellsTheImageInHex : Prop :=
  (∀ (g : Glyph) (j : Fin 16), (encodeGlyph g)[j] = hexchar ((glyphImage g).extractLsb' (60 - 4 * j.val) 4)) ∧
  (∀ (str : WireString) (g : Glyph), decodeGlyph 16 str = .ok g →
    ∀ j : Fin 16, hexval str[j] = some ((glyphImage g).extractLsb' (60 - 4 * j.val) 4).toNat)

/-- Rule R101: GLYENC answers the sixteen characters of the image, character `j` in lane `j`, with `len`
= 16; the state is unchanged. The characters are given through rule R106. -/
def Obligations.GlyencAnswersTheWireString : Prop :=
  ∀ (G : Image) (s : State), ∃ data : BitVec 128,
    exec (.glyenc G) s = .next { s with rsps := s.rsps ++ [rspWord { len := 16, data := data }] } ∧
    ∀ j : Fin 16, data.extractLsb' (8 * j) 8 = hexchar (G.extractLsb' (60 - 4 * j.val) 4)

/-- Rule R103: GLYDEC tests the length, then the characters in string order, and answers the image whose
nibbles the digits are; the state is unchanged. -/
def Obligations.GlydecAnswersTheImageOrTheFirstError : Prop :=
  ∀ (len : BitVec 8) (chars : BitVec 128) (s : State),
    (len ≠ 16 →
      exec (.glydec len chars) s =
        .next { s with rsps := s.rsps ++ [rspWord { status := .formatLen, exp := 16, len := len }] }) ∧
    (∀ j : Fin 16, len = 16 → hexval (chars.extractLsb' (8 * j) 8) = none →
      (∀ k : Fin 16, k < j → hexval (chars.extractLsb' (8 * k) 8) ≠ none) →
      exec (.glydec len chars) s =
        .next { s with
          rsps := s.rsps ++ [rspWord { status := .formatDigit, exp := 16, len := 16, index := BitVec.ofNat 8 j }] }) ∧
    (len = 16 → (∀ j : Fin 16, hexval (chars.extractLsb' (8 * j) 8) ≠ none) →
      ∃ G : Image,
        exec (.glydec len chars) s = .next { s with rsps := s.rsps ++ [rspWord { data := G.setWidth 128 }] } ∧
        ∀ j : Fin 16, hexval (chars.extractLsb' (8 * j) 8) = some (G.extractLsb' (60 - 4 * j.val) 4).toNat)

/-- Rule R34: the four codec commands read and write no state: the same command gives the same response
word in every state. -/
def Obligations.CodecCommandsAreStateless : Prop :=
  ∀ i : Instr,
    ((∃ b, i = .rowenc b) ∨ (∃ l c, i = .rowdec l c) ∨ (∃ G, i = .glyenc G) ∨ (∃ l c, i = .glydec l c)) →
    ∃ w : RspWord, ∀ s : State, exec i s = .next { s with rsps := s.rsps ++ [w] }

/-! ## The font table -/

/-- Rule R120: the default table has one blank entry for each key of the alphabet, in its order, and so
for each key the source names. -/
def Obligations.DefaultTableIsTheBlankAlphabet : Prop :=
  ∀ p : Config.Params, p.wf →
    (defaultTable p.alphabet).map Entry.key = p.alphabet ∧
    (∀ e ∈ defaultTable p.alphabet, e.glyph = blankGlyph) ∧
    (defaultTable p.alphabet).length = p.alphabet.length ∧
    ((defaultTable p.alphabet).map Entry.key).Nodup ∧
    (∀ k ∈ Config.known66, { key := k, glyph := blankGlyph } ∈ defaultTable p.alphabet) ∧
    (∀ k : Key, k ∈ [0x41, 0x61, 0x30, 0x2B, 0x2D, 0x5F, 0x3F] → k ∈ Config.known66)

/-- Rule R121: FTINIT fills the live table with blank glyphs for the alphabet, abandons a session, and
answers the number of entries. -/
def Obligations.FtinitRefillsTheTable : Prop :=
  ∀ s : State,
    exec .ftinit s =
      .next { s with
        ft := s.params.alphabet.map (fun k => { key := k, glyph := blankGlyph })
        impOpen := false
        st := []
        impErr := none
        rsps := s.rsps ++ [rspWord { index := BitVec.ofNat 8 s.params.alphabet.length }] }

/-- Rule R123: FTLOOKUP answers the key, the slot and the image of the entry, or KEY_NOT_FOUND; the state
is unchanged. The keys are distinct by rule R25 (a). -/
def Obligations.FtlookupAnswersTheEntry : Prop :=
  ∀ s : State, (s.ft.map Entry.key).Nodup →
    (∀ (n : Nat) (e : Entry), s.ft[n]? = some e →
      exec (.ftlookup e.key) s =
        .next { s with
          rsps := s.rsps ++
            [rspWord { key := e.key, index := BitVec.ofNat 8 n, data := (glyphImage e.glyph).setWidth 128 }] }) ∧
    (∀ k : Key, k ∉ s.ft.map Entry.key →
      exec (.ftlookup k) s = .next { s with rsps := s.rsps ++ [rspWord { status := .keyNotFound, key := k }] })

/-- Rule R124: on the image, `set_bit` sets bit `8*r + 7 - c` and leaves the other 63 bits. -/
def Obligations.SetBitChangesOneImageBit : Prop :=
  ∀ (g : Glyph) (r c : Fin 8) (v : Bool),
    (∀ r' c' : Fin 8, (setBit g r c v)[r'][c'] = if r' = r ∧ c' = c then v else g[r'][c']) ∧
    (∀ n : Fin 64, (glyphImage (setBit g r c v)).getLsbD n =
      if n.val = 8 * r.val + 7 - c.val then v else (glyphImage g).getLsbD n)

/-- Rule R125: FTSETBIT stores the one Bit of the one glyph, keeps every other entry, every key and every
slot, and touches nothing else; an absent key answers KEY_NOT_FOUND and changes nothing. -/
def Obligations.FtsetbitStoresTheOneBit : Prop :=
  ∀ (s : State) (row col : BitVec 3) (val : Bool), (s.ft.map Entry.key).Nodup →
    (∀ (n : Nat) (e : Entry), s.ft[n]? = some e →
      ∃ g : Glyph,
        exec (.ftsetbit e.key row col val) s =
          .next { s with
            ft := s.ft.set n { key := e.key, glyph := g }
            rsps := s.rsps ++ [rspWord { key := e.key, index := BitVec.ofNat 8 n }] } ∧
        ∀ r c : Fin 8, g[r][c] = if r.val = row.toNat ∧ c.val = col.toNat then val else e.glyph[r][c]) ∧
    (∀ k : Key, k ∉ s.ft.map Entry.key →
      exec (.ftsetbit k row col val) s =
        .next { s with rsps := s.rsps ++ [rspWord { status := .keyNotFound, key := k }] })

/-- Rules R47, R125: FTSETBIT twice with the same operands leaves the table of FTSETBIT once, and a
following FTLOOKUP answers the image with bit `8*row + 7 - col` equal to `val`. -/
def Obligations.FtsetbitIsIdempotentAndVisible : Prop :=
  ∀ (s t : State) (k : Key) (row col : BitVec 3) (val : Bool),
    k ∈ s.ft.map Entry.key → exec (.ftsetbit k row col val) s = .next t →
    (∃ u, exec (.ftsetbit k row col val) t = .next u ∧ u.ft = t.ft) ∧
    ∃ (u : State) (w : RspWord), exec (.ftlookup k) t = .next u ∧ u.rsps = t.rsps ++ [w] ∧
      rspStatus w = statusCode .ok ∧ rspKey w = k ∧
      (rspData w).getLsbD (8 * row.toNat + 7 - col.toNat) = val

/-- Rule R126: FTSTAT answers the number of entries of the live table and `imp_open`; the state is
unchanged. -/
def Obligations.FtstatAnswersTheStatusView : Prop :=
  ∀ s : State,
    exec .ftstat s =
      .next { s with rsps := s.rsps ++ [rspWord { index := BitVec.ofNat 8 s.ft.length, flag := s.impOpen }] }

/-- Rule R128: FTEXPORT answers the key and the wire string of a slot that exists, and INDEX_RANGE for
any other index; the state, the stored glyph with it, is unchanged. -/
def Obligations.FtexportAnswersTheSlot : Prop :=
  ∀ (s : State) (index : BitVec 8),
    (∀ e : Entry, s.ft[index.toNat]? = some e →
      ∃ data : BitVec 128,
        exec (.ftexport index) s =
          .next { s with
            rsps := s.rsps ++ [rspWord { key := e.key, index := index, len := 16, data := data }] } ∧
        ∀ j : Fin 16, data.extractLsb' (8 * j) 8 = (encodeGlyph e.glyph)[j]) ∧
    (s.ft.length ≤ index.toNat →
      exec (.ftexport index) s =
        .next { s with rsps := s.rsps ++ [rspWord { status := .indexRange, index := index }] })

/-- Rule R127: the export of a table is its entries in slot order, the keys unchanged, each glyph as its
wire string of sixteen characters of `0-9a-f`. -/
def Obligations.ExportTableListsEveryEntry : Prop :=
  ∀ T : Table,
    (exportTable T).length = T.length ∧
    (∀ (n : Nat) (e : Entry), T[n]? = some e → (exportTable T)[n]? = some (e.key, encodeGlyph e.glyph)) ∧
    (∀ row ∈ exportTable T, ∀ j : Fin 16, hexval row.2[j] ≠ none)

/-- Rules R72, R129: EXPORT, that is FTSTAT and one FTEXPORT for each slot, lists exactly `export_table`
of the live table, and changes no state. At most 255 entries: rules R4, R25. -/
def Obligations.PseudoExportListsTheLiveTable : Prop :=
  ∀ s : State, s.ft.length ≤ 255 →
    ∃ t : State, pseudoExport s = .next (t, exportTable s.ft) ∧ { t with rsps := s.rsps } = s

/-- Rule R72: BLANK leaves the blank glyph under a key that is present, and the other entries as they
were; an absent key answers KEY_NOT_FOUND at the first command. -/
def Obligations.PseudoBlankClearsTheGlyph : Prop :=
  ∀ s : State, (s.ft.map Entry.key).Nodup →
    (∀ (n : Nat) (e : Entry), s.ft[n]? = some e →
      ∃ (t : State) (w : RspWord), pseudoBlank e.key s = .next (t, w) ∧ rspStatus w = statusCode .ok ∧
        { t with rsps := s.rsps } = { s with ft := s.ft.set n { key := e.key, glyph := blankGlyph } }) ∧
    (∀ k : Key, k ∉ s.ft.map Entry.key →
      pseudoBlank k s =
        .next ({ s with rsps := s.rsps ++ [rspWord { status := .keyNotFound, key := k }] },
          rspWord { status := .keyNotFound, key := k }))

/-- Rules R130, R31: only FTINIT and FTIMPCOMMIT change the keys of the live table, their order or their
number: to the alphabet, or to the keys of the staging table. -/
def Obligations.OnlyReplacementChangesTheKeys : Prop :=
  ∀ (i : Instr) (s t : State), exec i s = .next t →
    t.ft.map Entry.key = s.ft.map Entry.key ∨
    (i = .ftinit ∧ t.ft.map Entry.key = s.params.alphabet) ∨
    (i = .ftimpcommit ∧ s.impOpen = true ∧ s.impErr = none ∧ t.ft = s.st)

/-! ## The import session -/

/-- Rule R145: FTIMPBEGIN opens an empty session for an OBJECT payload, and closes any session and answers
VALID_NOT_OBJECT for every other type; the live table is unchanged. -/
def Obligations.FtimpbeginOpensOrRejects : Prop :=
  ∀ (ty : TypeCode) (s : State),
    (ty = typeObject →
      exec (.ftimpbegin ty) s =
        .next { s with impOpen := true, st := [], impErr := none, rsps := s.rsps ++ [rspWord { flag := true }] }) ∧
    (ty ≠ typeObject →
      exec (.ftimpbegin ty) s =
        .next { s with
          impOpen := false
          st := []
          impErr := none
          rsps := s.rsps ++ [rspWord { status := .validNotObject, ty := ty }] })

/-- Rule R146: FTIMPENTRY is PROTOCOL outside a session. Inside one it answers OK with `flag` = 1 and
never touches the live table: a recorded VALID_NOT_STRING is kept; a first non-string value is recorded,
over any other record; after a record no string is looked at; a string that does not decode records its
error with the key; one that decodes replaces the glyph of its key, takes the next slot, or records
TABLE_FULL. The staged keys are distinct by rule R27. -/
def Obligations.FtimpentryStagesOneMember : Prop :=
  ∀ (key : Key) (ty : TypeCode) (len : BitVec 8) (chars : BitVec 128) (s : State),
    (s.impOpen = false →
      exec (.ftimpentry key ty len chars) s =
        .next { s with rsps := s.rsps ++ [rspWord { status := .protocol }] }) ∧
    (∀ e, s.impOpen = true → s.impErr = some e → e.status = .validNotString →
      exec (.ftimpentry key ty len chars) s = .next { s with rsps := s.rsps ++ [rspWord { flag := true }] }) ∧
    (s.impOpen = true → ty ≠ typeString → (∀ e, s.impErr = some e → e.status ≠ .validNotString) →
      exec (.ftimpentry key ty len chars) s =
        .next { s with
          impErr := some { status := .validNotString, ty := ty, key := key }
          rsps := s.rsps ++ [rspWord { flag := true }] }) ∧
    (∀ e, s.impOpen = true → ty = typeString → s.impErr = some e →
      exec (.ftimpentry key ty len chars) s = .next { s with rsps := s.rsps ++ [rspWord { flag := true }] }) ∧
    (∀ e, s.impOpen = true → ty = typeString → s.impErr = none →
      decodeGlyph len (stringChars chars) = .error e →
      exec (.ftimpentry key ty len chars) s =
        .next { s with
          impErr := some
            { status := e.status, ty := 0, exp := e.exp, len := e.len, index := e.index, key := key }
          rsps := s.rsps ++ [rspWord { flag := true }] }) ∧
    (∀ g n old, s.impOpen = true → ty = typeString → s.impErr = none →
      decodeGlyph len (stringChars chars) = .ok g → (s.st.map Entry.key).Nodup →
      s.st[n]? = some { key := key, glyph := old } →
      exec (.ftimpentry key ty len chars) s =
        .next { s with
          st := s.st.set n { key := key, glyph := g }
          rsps := s.rsps ++ [rspWord { flag := true }] }) ∧
    (∀ g, s.impOpen = true → ty = typeString → s.impErr = none →
      decodeGlyph len (stringChars chars) = .ok g → key ∉ s.st.map Entry.key →
      s.st.length = s.params.tableCap →
      exec (.ftimpentry key ty len chars) s =
        .next { s with
          impErr := some { status := .tableFull, key := key }
          rsps := s.rsps ++ [rspWord { flag := true }] }) ∧
    (∀ g, s.impOpen = true → ty = typeString → s.impErr = none →
      decodeGlyph len (stringChars chars) = .ok g → key ∉ s.st.map Entry.key →
      s.st.length ≠ s.params.tableCap →
      exec (.ftimpentry key ty len chars) s =
        .next { s with
          st := s.st ++ [{ key := key, glyph := g }]
          rsps := s.rsps ++ [rspWord { flag := true }] })

/-- Rule R147: FTIMPCOMMIT is PROTOCOL outside a session; inside one it closes the session, and either
the staging table becomes the live table or the recorded error is answered and the live table stays. -/
def Obligations.FtimpcommitGivesTheVerdict : Prop :=
  ∀ s : State,
    (s.impOpen = false →
      exec .ftimpcommit s = .next { s with rsps := s.rsps ++ [rspWord { status := .protocol }] }) ∧
    (s.impOpen = true → s.impErr = none →
      exec .ftimpcommit s =
        .next { s with
          ft := s.st
          impOpen := false
          st := []
          impErr := none
          rsps := s.rsps ++ [rspWord { index := BitVec.ofNat 8 s.st.length }] }) ∧
    (∀ e, s.impOpen = true → s.impErr = some e →
      exec .ftimpcommit s =
        .next { s with
          impOpen := false
          st := []
          impErr := none
          rsps := s.rsps ++
            [rspWord
              { status := e.status, ty := e.ty, exp := e.exp, len := e.len, index := e.index, key := e.key }] })

/-- Rule R141: the validation contract in its order: the top-level type, then the first value that is no
string, wherever it stands, then the first member whose string fails, then the table. -/
def Obligations.ImportTableValidatesInOrder : Prop :=
  ∀ (cap : Nat) (E : List Member),
    (∀ top, top ≠ typeObject → importTable cap top E = .error { status := .validNotObject, ty := top }) ∧
    (∀ E₁ m E₂, E = E₁ ++ m :: E₂ → (∀ x ∈ E₁, x.ty = typeString) → m.ty ≠ typeString →
      importTable cap typeObject E = .error { status := .validNotString, key := m.key, ty := m.ty }) ∧
    (∀ E₁ m E₂ T e, E = E₁ ++ m :: E₂ → (∀ x ∈ E, x.ty = typeString) → importTable cap typeObject E₁ = .ok T →
      decodeGlyph m.len (stringChars m.chars) = .error e →
      importTable cap typeObject E =
        .error { status := e.status, exp := e.exp, len := e.len, index := e.index, key := m.key }) ∧
    (∀ E₁ m E₂ T g, E = E₁ ++ m :: E₂ → (∀ x ∈ E, x.ty = typeString) → importTable cap typeObject E₁ = .ok T →
      decodeGlyph m.len (stringChars m.chars) = .ok g → m.key ∉ T.map Entry.key → T.length = cap →
      importTable cap typeObject E = .error { status := .tableFull, key := m.key }) ∧
    ((∀ x ∈ E, x.ty = typeString ∧ ∃ g, decodeGlyph x.len (stringChars x.chars) = .ok g) → E.length ≤ cap →
      ∃ T, importTable cap typeObject E = .ok T)

/-- Rule R143: the table of a successful import has exactly the payload's keys, each once, in the order of
their first appearance, each with the glyph of its last appearance; every member is validated, one whose
key comes again too. -/
def Obligations.ImportedTableHasFirstSlotsAndLastGlyphs : Prop :=
  ∀ (cap : Nat) (E : List Member) (T : Table), importTable cap typeObject E = .ok T →
    (∀ m ∈ E, m.ty = typeString ∧ ∃ g, decodeGlyph m.len (stringChars m.chars) = .ok g) ∧
    (T.map Entry.key).Nodup ∧
    (∀ k, k ∈ T.map Entry.key ↔ k ∈ E.map Member.key) ∧
    (T.map Entry.key).Pairwise (fun a b => (E.map Member.key).idxOf a < (E.map Member.key).idxOf b) ∧
    (∀ x ∈ T, ∃ E₁ m E₂, E = E₁ ++ m :: E₂ ∧ m.key = x.key ∧ (∀ y ∈ E₂, y.key ≠ x.key) ∧
      decodeGlyph m.len (stringChars m.chars) = .ok x.glyph)

/-- Rule R148: an FTIMPBEGIN that fails answers the error of `import_table(top, [])`; after FTIMPBEGIN
OBJECT and any commands but FTINIT, FTIMPBEGIN and FTIMPCOMMIT, FTIMPCOMMIT answers what `import_table`
gives for the members presented, and the live table becomes its table or stays as it is. -/
def Obligations.SessionComputesImportTable : Prop :=
  (∀ (s : State) (top : TypeCode) (e : ErrRecord), importTable s.params.tableCap top [] = .error e →
    exec (.ftimpbegin top) s =
      .next { s with impOpen := false, st := [], impErr := none, rsps := s.rsps ++ [rspWord (errorRsp e)] }) ∧
  ∀ (s u : State) (cs : List Instr),
    (∀ c ∈ cs, c ≠ .ftinit ∧ c ≠ .ftimpcommit ∧ ∀ ty, c ≠ .ftimpbegin ty) →
    execSeq (.ftimpbegin typeObject :: cs) s = .next u →
    (∀ T, importTable s.params.tableCap typeObject (cs.filterMap presentedMember) = .ok T →
      exec .ftimpcommit u =
        .next { u with
          ft := T
          impOpen := false
          st := []
          impErr := none
          rsps := u.rsps ++ [rspWord { index := BitVec.ofNat 8 T.length }] }) ∧
    (∀ e, importTable s.params.tableCap typeObject (cs.filterMap presentedMember) = .error e →
      exec .ftimpcommit u =
        .next { u with
          impOpen := false
          st := []
          impErr := none
          rsps := u.rsps ++ [rspWord (errorRsp e)] })

/-- Rules R72, R142, R148: IMPORT of any payload answers what `import_table` gives: the live table becomes
its table, or stays as it was and the error is the answer; no session is left open. -/
def Obligations.PseudoImportReplacesTheTableOrNothing : Prop :=
  ∀ (top : TypeCode) (E : List Member) (s : State), ∃ (t : State) (w : RspWord),
    pseudoImport top E s = .next (t, w) ∧
    (∀ T, importTable s.params.tableCap top E = .ok T →
      w = rspWord { index := BitVec.ofNat 8 T.length } ∧
      { t with rsps := s.rsps } = { s with ft := T, impOpen := false, st := [], impErr := none }) ∧
    (∀ e, importTable s.params.tableCap top E = .error e →
      w = rspWord (errorRsp e) ∧
      { t with rsps := s.rsps } = { s with impOpen := false, st := [], impErr := none })

/-- Rule R149: the codec commands, FTLOOKUP, FTSETBIT, FTEXPORT and the illegal commands do the same in
every state of the session and leave it alone; so does FTSTAT but for `flag`, which shows it; FTINIT
closes it. -/
def Obligations.OtherCommandsIgnoreTheSession : Prop :=
  (∀ (i : Instr) (s t : State) (isOpen : Bool) (S : Table) (err : Option ErrRecord),
    i ≠ .ftinit → i ≠ .ftstat → i ≠ .ftimpcommit → (∀ ty, i ≠ .ftimpbegin ty) →
    (∀ k ty l c, i ≠ .ftimpentry k ty l c) → exec i s = .next t →
    t.impOpen = s.impOpen ∧ t.st = s.st ∧ t.impErr = s.impErr ∧
    exec i { s with impOpen := isOpen, st := S, impErr := err } =
      .next { t with impOpen := isOpen, st := S, impErr := err }) ∧
  (∀ s : State, ∃ w, exec .ftstat s = .next { s with rsps := s.rsps ++ [w] } ∧ rspFlag w = s.impOpen) ∧
  (∀ s t : State, exec .ftinit s = .next t → t.impOpen = false)

/-- Rule R31: `imp_open` changes only through FTINIT, FTIMPBEGIN and FTIMPCOMMIT. -/
def Obligations.OnlyThreeCommandsChangeImpOpen : Prop :=
  ∀ (i : Instr) (s t : State), exec i s = .next t → t.impOpen ≠ s.impOpen →
    i = .ftinit ∨ i = .ftimpcommit ∨ ∃ ty, i = .ftimpbegin ty

/-- Rule R27: a host cannot read `ST` or `imp_err` by any command but FTIMPCOMMIT: two states that differ
in nothing else give the same responses and go on differing in nothing else. -/
def Obligations.StagingIsHiddenUntilTheCommit : Prop :=
  ∀ (i : Instr) (s t : State) (S : Table) (err : Option ErrRecord),
    i ≠ .ftimpcommit → exec i s = .next t →
    ∃ (S' : Table) (err' : Option ErrRecord),
      exec i { s with st := S, impErr := err } = .next { t with st := S', impErr := err' }

/-! ## Reserved opcodes -/

/-- Rule R64: a word whose `op` is 0xC to 0xF answers ILLEGAL_CMD and changes nothing. -/
def Obligations.ReservedOpcodesAnswerIllegalCmd : Prop :=
  (∀ s : State, ∀ i ∈ [Instr.reservedC, .reservedD, .reservedE, .reservedF],
    exec i s = .next { s with rsps := s.rsps ++ [rspWord { status := .illegalCmd }] }) ∧
  ∀ (s : State) (w : CmdWord) (rest : List PortEvent), 0xC ≤ (w.extractLsb' 0 4).toNat →
    s.port = .command w :: rest →
    step s = .next { s with port := rest, rsps := s.rsps ++ [rspWord { status := .illegalCmd }] }

/-! ## Strings at the port -/

/-- Rule R65: the characters of a string stand in their lanes, a code point above U+00FF as 0xFF, and the
length saturates at 255; a string of any length but 16 is refused by GLYDEC on its length alone.
That the length counts one character for each code point (the length of a `List Char`) is the model's
choice, log entry 12, and no rule of the spec: R65 and entry N8 leave open in what unit a character outside
the basic plane counts. For strings that hold such characters the length clause, the lane of a later
character, and the last clause (which strings GLYDEC refuses on their length, and the `len` it reports) rest
on that choice. -/
def Obligations.PresentedStringStandsInItsLanes : Prop :=
  ∀ t : List Char,
    (presentLen t).toNat = min t.length 255 ∧
    (∀ (j : Fin 16) (c : Char), t[j.val]? = some c →
      (stringChars (presentChars t))[j] = if c.toNat ≤ 0xFF then BitVec.ofNat 8 c.toNat else 0xFF) ∧
    (t.length ≠ 16 → ∀ s : State,
      exec (scriptGlydec t) s =
        .next { s with
          rsps := s.rsps ++
            [rspWord { status := .formatLen, exp := 16, len := BitVec.ofNat 8 (min t.length 255) }] })
end

