-- ==== Sys2Proof/Laws/State.lean ====
section
/-! SUPPORT. The small lemmas of the state's updates: one for each field of each update, so that no later
proof unfolds a record update. -/

namespace Sys2Proof.Machine

section Respond
variable (r : Rsp) (s : State)
@[simp] theorem respond_params : (respond r s).params = s.params := rfl
@[simp] theorem respond_ft : (respond r s).ft = s.ft := rfl
@[simp] theorem respond_impOpen : (respond r s).impOpen = s.impOpen := rfl
@[simp] theorem respond_st : (respond r s).st = s.st := rfl
@[simp] theorem respond_impErr : (respond r s).impErr = s.impErr := rfl
@[simp] theorem respond_port : (respond r s).port = s.port := rfl
@[simp] theorem respond_rsps : (respond r s).rsps = s.rsps ++ [rspWord r] := rfl
end Respond

section Fail
variable (e : ErrRecord) (s : State)
@[simp] theorem fail_params : (fail e s).params = s.params := rfl
@[simp] theorem fail_ft : (fail e s).ft = s.ft := rfl
@[simp] theorem fail_impOpen : (fail e s).impOpen = s.impOpen := rfl
@[simp] theorem fail_st : (fail e s).st = s.st := rfl
@[simp] theorem fail_impErr : (fail e s).impErr = s.impErr := rfl
@[simp] theorem fail_port : (fail e s).port = s.port := rfl
@[simp] theorem fail_rsps : (fail e s).rsps = s.rsps ++ [rspWord (errorRsp e)] := rfl
end Fail

section WithFt
variable (s : State) (T : Table)
@[simp] theorem withFt_params : (s.withFt T).params = s.params := rfl
@[simp] theorem withFt_ft : (s.withFt T).ft = T := rfl
@[simp] theorem withFt_impOpen : (s.withFt T).impOpen = s.impOpen := rfl
@[simp] theorem withFt_st : (s.withFt T).st = s.st := rfl
@[simp] theorem withFt_impErr : (s.withFt T).impErr = s.impErr := rfl
@[simp] theorem withFt_port : (s.withFt T).port = s.port := rfl
@[simp] theorem withFt_rsps : (s.withFt T).rsps = s.rsps := rfl
end WithFt

section WithSession
variable (s : State) (o : Bool) (T : Table) (e : Option ErrRecord)
@[simp] theorem withSession_params : (s.withSession o T e).params = s.params := rfl
@[simp] theorem withSession_ft : (s.withSession o T e).ft = s.ft := rfl
@[simp] theorem withSession_impOpen : (s.withSession o T e).impOpen = o := rfl
@[simp] theorem withSession_st : (s.withSession o T e).st = T := rfl
@[simp] theorem withSession_impErr : (s.withSession o T e).impErr = e := rfl
@[simp] theorem withSession_port : (s.withSession o T e).port = s.port := rfl
@[simp] theorem withSession_rsps : (s.withSession o T e).rsps = s.rsps := rfl
end WithSession

section CloseSession
variable (s : State)
@[simp] theorem closeSession_params : (closeSession s).params = s.params := rfl
@[simp] theorem closeSession_ft : (closeSession s).ft = s.ft := rfl
@[simp] theorem closeSession_impOpen : (closeSession s).impOpen = false := rfl
@[simp] theorem closeSession_st : (closeSession s).st = [] := rfl
@[simp] theorem closeSession_impErr : (closeSession s).impErr = none := rfl
@[simp] theorem closeSession_port : (closeSession s).port = s.port := rfl
@[simp] theorem closeSession_rsps : (closeSession s).rsps = s.rsps := rfl
end CloseSession

section OpenSession
variable (s : State)
@[simp] theorem openSession_params : (openSession s).params = s.params := rfl
@[simp] theorem openSession_ft : (openSession s).ft = s.ft := rfl
@[simp] theorem openSession_impOpen : (openSession s).impOpen = true := rfl
@[simp] theorem openSession_st : (openSession s).st = [] := rfl
@[simp] theorem openSession_impErr : (openSession s).impErr = none := rfl
@[simp] theorem openSession_port : (openSession s).port = s.port := rfl
@[simp] theorem openSession_rsps : (openSession s).rsps = s.rsps := rfl
end OpenSession

section ResetBlock
variable (s : State)
@[simp] theorem resetBlock_params : (resetBlock s).params = s.params := rfl
@[simp] theorem resetBlock_ft : (resetBlock s).ft = defaultTable s.params.alphabet := rfl
@[simp] theorem resetBlock_impOpen : (resetBlock s).impOpen = false := rfl
@[simp] theorem resetBlock_st : (resetBlock s).st = [] := rfl
@[simp] theorem resetBlock_impErr : (resetBlock s).impErr = none := rfl
@[simp] theorem resetBlock_port : (resetBlock s).port = s.port := rfl
@[simp] theorem resetBlock_rsps : (resetBlock s).rsps = s.rsps := rfl
end ResetBlock

/-- An answer is one response and nothing else: all that `answer` can do. -/
theorem answer_eq_respond (result : Except ErrRecord Rsp) (s : State) :
    ∃ r, answer result s = respond r s ∧
      (result = .ok r ∨ ∃ e, result = .error e ∧ r = errorRsp e) := by
  cases result with
  | ok r => exact ⟨r, rfl, .inl rfl⟩
  | error e => exact ⟨errorRsp e, rfl, .inr ⟨e, rfl, rfl⟩⟩

@[simp] theorem answer_ok (r : Rsp) (s : State) : answer (.ok r) s = respond r s := rfl
@[simp] theorem answer_error (e : ErrRecord) (s : State) : answer (.error e) s = fail e s := rfl

/-- What can come from the port: nothing, or its first event, with only the port changed. -/
theorem takeEvent_cases (s : State) :
    (s.port = [] ∧ takeEvent s = none) ∨
    ∃ e rest, s.port = e :: rest ∧ takeEvent s = some (e, { s with port := rest }) := by
  unfold takeEvent
  split
  · exact .inl ⟨by assumption, rfl⟩
  · exact .inr ⟨_, _, by assumption, rfl⟩

theorem presentFirst_takeEvent (w : CmdWord) (s : State) :
    takeEvent (presentFirst w s) = some (.command w, s) := rfl

end Sys2Proof.Machine
end

