-- ==== Sys2Proof/Laws/Codec.lean ====
section
/-! SUPPORT. The codec: all that decoding a row, a chunk and a glyph can do. -/

namespace Sys2Proof.Machine

/-- All that `decode_row` can do (rule R85). -/
theorem decodeRow_cases (len : BitVec 8) (c0 c1 : CharCode) :
    (len ≠ rowHexLen ∧ decodeRow len c0 c1 = .error (errFormatLen rowHexLen len)) ∨
    (len = rowHexLen ∧ hexval c0 = none ∧ decodeRow len c0 c1 = .error (errFormatDigit rowHexLen 0)) ∨
    (∃ h, len = rowHexLen ∧ hexval c0 = some h ∧ hexval c1 = none ∧
      decodeRow len c0 c1 = .error (errFormatDigit rowHexLen 1)) ∨
    (∃ h l, len = rowHexLen ∧ hexval c0 = some h ∧ hexval c1 = some l ∧
      decodeRow len c0 c1 = .ok (rowOfByte (BitVec.ofNat 8 (16 * h + l)))) := by
  by_cases hl : len = rowHexLen
  · cases h0 : hexval c0 <;> cases h1 : hexval c1 <;> simp [decodeRow, hl, h0, h1]
  · exact .inl ⟨hl, if_pos hl⟩

/-- All that decoding a chunk can do: the row, or the first bad character of the two at its index in the
whole string (rule R102). -/
theorem decodeChunk_cases (s : WireString) (k : Fin 8) :
    (hexval s[2 * k.val] = none ∧
      decodeChunk s k = .error (errFormatDigit glyphHexLen (BitVec.ofNat 8 (2 * k.val)))) ∨
    (∃ h, hexval s[2 * k.val] = some h ∧ hexval s[2 * k.val + 1] = none ∧
      decodeChunk s k = .error (errFormatDigit glyphHexLen (BitVec.ofNat 8 (2 * k.val + 1)))) ∨
    (∃ h l, hexval s[2 * k.val] = some h ∧ hexval s[2 * k.val + 1] = some l ∧
      decodeChunk s k = .ok (rowOfByte (BitVec.ofNat 8 (16 * h + l)))) := by
  rcases decodeRow_cases rowHexLen s[2 * k.val] s[2 * k.val + 1] with
    ⟨hl, _⟩ | ⟨_, h0, hd⟩ | ⟨h, _, h0, h1, hd⟩ | ⟨h, l, _, h0, h1, hd⟩
  · exact absurd rfl hl
  · exact .inl ⟨h0, by simp [decodeChunk, hd, errFormatDigit]⟩
  · exact .inr (.inl ⟨h, h0, h1, by simp [decodeChunk, hd, errFormatDigit, BitVec.ofNat_add]⟩)
  · exact .inr (.inr ⟨h, l, h0, h1, by simp only [decodeChunk, hd]⟩)

/-- `decode_glyph` on the right length is its eight chunks in order. -/
theorem decodeGlyph_chunks (s : WireString) :
    decodeGlyph glyphHexLen s =
      (decodeChunk s 0).bind fun w0 => (decodeChunk s 1).bind fun w1 => (decodeChunk s 2).bind fun w2 =>
      (decodeChunk s 3).bind fun w3 => (decodeChunk s 4).bind fun w4 => (decodeChunk s 5).bind fun w5 =>
      (decodeChunk s 6).bind fun w6 => (decodeChunk s 7).bind fun w7 =>
        .ok #v[w7, w6, w5, w4, w3, w2, w1, w0] := rfl

/-- All that `decode_glyph` can do (rule R102): the length error, the error of the first bad chunk, or the
glyph with chunk `k` as row `7-k`. -/
theorem decodeGlyph_cases (len : BitVec 8) (s : WireString) :
    (len ≠ glyphHexLen ∧ decodeGlyph len s = .error (errFormatLen glyphHexLen len)) ∨
    (∃ (k : Fin 8) (e : ErrRecord), len = glyphHexLen ∧ (∀ j < k, ∃ w, decodeChunk s j = .ok w) ∧
      decodeChunk s k = .error e ∧ decodeGlyph len s = .error e) ∨
    (∃ g : Glyph, len = glyphHexLen ∧ (∀ k : Fin 8, decodeChunk s k = .ok g[7 - k.val]) ∧
      decodeGlyph len s = .ok g) := by
  by_cases hl : len = glyphHexLen
  · subst hl
    refine .inr ?_
    rw [decodeGlyph_chunks]
    by_cases hall : ∀ k, ∃ w, decodeChunk s k = .ok w
    · choose w hw using hall
      refine .inr ⟨#v[w 7, w 6, w 5, w 4, w 3, w 2, w 1, w 0], rfl, ?_, by simp only [hw, Except.bind]⟩
      intro k
      fin_cases k <;> exact hw _
    · rw [not_forall] at hall
      obtain ⟨k, hk, hmin⟩ := (wellFounded_lt (α := Fin 8)).has_min (fun k => ¬∃ w, decodeChunk s k = .ok w) hall
      have hbefore : ∀ j < k, ∃ w, decodeChunk s j = .ok w := fun j hj => by
        by_contra h
        exact hmin j h hj
      cases he : decodeChunk s k with
      | ok w => exact absurd ⟨w, he⟩ hk
      | error e =>
        refine .inl ⟨k, e, rfl, hbefore, he, ?_⟩
        choose w hw using hbefore
        obtain rfl | rfl | rfl | rfl | rfl | rfl | rfl | rfl :
            k = 0 ∨ k = 1 ∨ k = 2 ∨ k = 3 ∨ k = 4 ∨ k = 5 ∨ k = 6 ∨ k = 7 := by omega
        all_goals simp (disch := decide) only [hw, he, Except.bind]
  · exact .inl ⟨hl, if_pos hl⟩

end Sys2Proof.Machine
end

