-- ==== Sys2Proof/Laws/Decode.lean ====
section
/-! SUPPORT. The words of the port: fields of a concatenation, each field of an assembled command word read
back at its bits, and the response word in the same form. -/

namespace Sys2Proof

/-- A field above the lower part of a concatenation is a field of the upper part. -/
theorem extractLsb'_append_high {n m : Nat} (x : BitVec n) (y : BitVec m) (start len : Nat) (h : m ≤ start) :
    (x ++ y).extractLsb' start len = x.extractLsb' (start - m) len := by
  apply BitVec.eq_of_getLsbD_eq
  intro i hi
  have : ¬ start + i < m := by omega
  simp only [BitVec.getLsbD_extractLsb', BitVec.getLsbD_append, this, if_false, Nat.sub_add_comm h]

/-- The lower part of a concatenation, read back. -/
theorem extractLsb'_append_low {n m : Nat} (x : BitVec n) (y : BitVec m) (len : Nat) (h : m = len) :
    (x ++ y).extractLsb' 0 len = y.cast h := by
  subst h
  apply BitVec.eq_of_getLsbD_eq
  intro i hi
  simp [BitVec.getLsbD_append, hi]

theorem getLsbD_append_high {n m : Nat} (x : BitVec n) (y : BitVec m) (i : Nat) (h : m ≤ i) :
    (x ++ y).getLsbD i = x.getLsbD (i - m) := by
  simp [BitVec.getLsbD_append, Nat.not_lt.mpr h]

theorem getLsbD_append_low {n m : Nat} (x : BitVec n) (y : BitVec m) (i : Nat) (h : i < m) :
    (x ++ y).getLsbD i = y.getLsbD i := by
  simp [BitVec.getLsbD_append, h]

/-- The command word with its width as a sum, so that the lemmas of `++` apply. -/
theorem cmdWord_eq_cast (f : CmdFields) :
    cmdWord f = BitVec.cast (by decide : 128 + 3 + 21 + 8 + 8 + 2 + 3 + 3 + 1 + 3 + 4 = 184)
      (f.data ++ 0#3 ++ f.key ++ f.index ++ f.len ++ 0#2 ++ f.row ++ f.col ++ BitVec.ofBool f.val ++ f.ty ++ f.op) :=
  rfl

/-- Every field of an assembled command word is read back. -/
theorem cmdFields_cmdWord (f : CmdFields) : cmdFields (cmdWord f) = f := by
  obtain ⟨op, ty, val, col, row, len, index, key, data⟩ := f
  simp only [cmdFields, cmdWord_eq_cast, BitVec.extractLsb'_cast, BitVec.getLsbD_cast]
  simp (disch := decide) only [extractLsb'_append_high, extractLsb'_append_low, getLsbD_append_high,
    getLsbD_append_low, Nat.reduceSub, BitVec.cast_eq]
  simp

namespace Machine

/-- The response word with its width as a sum, so that the lemmas of `++` apply. -/
theorem rspWord_eq_cast (r : Rsp) :
    rspWord r = BitVec.cast (by decide : 128 + 3 + 21 + 8 + 8 + 8 + 1 + 3 + 4 = 184)
      (r.data ++ 0#3 ++ r.key ++ r.index ++ r.len ++ r.exp ++ BitVec.ofBool r.flag ++ r.ty ++ statusCode r.status) :=
  rfl

end Machine

end Sys2Proof
end

