-- ==== Sys2Proof/Laws/Operands.lean ====
section
/-! SUPPORT. The operand forms: rows and row bytes, images and lanes, hex digits. -/

namespace Sys2Proof.Machine

theorem row_ext {v w : Row} (h : ∀ i : Fin 8, v[i] = w[i]) : v = w :=
  Vector.ext fun i hi => h ⟨i, hi⟩

/-- The eight Bits of a Row, written out. -/
theorem row_eta (w : Row) : w = #v[w[0], w[1], w[2], w[3], w[4], w[5], w[6], w[7]] :=
  row_ext fun i => by fin_cases i <;> rfl

/-- A fact about every Row follows from the fact about every eight Bits. -/
theorem row_forall {P : Row → Prop} (h : ∀ a b c d e f g i : Bool, P #v[a, b, c, d, e, f, g, i]) (w : Row) : P w :=
  row_eta w ▸ h _ _ _ _ _ _ _ _

@[simp] theorem rowOfByte_getElem (b : BitVec 8) (i : Fin 8) : (rowOfByte b)[i] = b.getLsbD (7 - i) := by
  simp [rowOfByte]

theorem rowByte_bits (w : Row) (i : Fin 8) : (rowByte w).getLsbD i = w[7 - i.val] :=
  row_forall (P := fun w => ∀ i : Fin 8, (rowByte w).getLsbD i = w[7 - i.val]) (by decide +kernel) w i

theorem glyph_ext {g h : Glyph} (e : ∀ r c : Fin 8, g[r][c] = h[r][c]) : g = h :=
  Vector.ext fun r hr => row_ext fun c => e ⟨r, hr⟩ c

@[simp] theorem glyphOfImage_getElem (G : Image) (r : Fin 8) : (glyphOfImage G)[r] = rowOfByte (lane G r) := by
  simp [glyphOfImage]

@[simp] theorem stringChars_getElem (d : BitVec 128) (j : Fin 16) : (stringChars d)[j] = lane d j := by
  simp [stringChars]

/-- All that packing lanes does: bit `i` is bit `i % 8` of element `i / 8`, zero above the last. -/
theorem packLanes_getLsbD {n : Nat} (bs : List (BitVec 8)) (i : Nat) (hi : i < n) :
    (packLanes bs : BitVec n).getLsbD i = (bs[i / 8]?.getD 0).getLsbD (i % 8) := by
  induction bs generalizing i with
  | nil => simp [packLanes]
  | cons b bs ih =>
    simp only [packLanes, BitVec.getLsbD_or, BitVec.getLsbD_shiftLeft, BitVec.getLsbD_setWidth, hi, decide_true,
      Bool.true_and]
    by_cases h : i < 8
    · simp [h, Nat.div_eq_of_lt h, Nat.mod_eq_of_lt h]
    · have hd : i / 8 = (i - 8) / 8 + 1 := by omega
      have hm : i % 8 = (i - 8) % 8 := by omega
      have hb : b.getLsbD i = false := BitVec.getLsbD_of_ge b i (by omega)
      rw [ih (i - 8) (by omega), hd, hm]
      simp [h, hb]

/-- Lane `j` of packed lanes is element `j`. -/
theorem lane_packLanes {n : Nat} (bs : List (BitVec 8)) (j : Nat) (hj : 8 * j + 8 ≤ n) :
    lane (packLanes bs : BitVec n) j = bs[j]?.getD 0 := by
  apply BitVec.eq_of_getLsbD_eq
  intro i hi
  have h : (8 * j + i) / 8 = j ∧ (8 * j + i) % 8 = i := by omega
  simp only [lane, BitVec.getLsbD_extractLsb', hi, decide_true, Bool.true_and]
  rw [packLanes_getLsbD _ _ (by omega), h.1, h.2]

/-- Row `r` stands in byte lane `r` of the image. -/
theorem lane_glyphImage (g : Glyph) (r : Fin 8) : lane (glyphImage g) r = rowByte g[r] := by
  rw [glyphImage, lane_packLanes _ _ (by omega)]
  simp

/-- Character `j` stands in lane `j` of the data of a string. -/
theorem lane_stringData {n : Nat} (str : Vector CharCode n) (j : Fin n) (hn : n ≤ 16) :
    lane (stringData str) j = str[j] := by
  rw [stringData, lane_packLanes _ _ (by omega)]
  simp

theorem stringChars_stringData (str : WireString) : stringChars (stringData str) = str :=
  Vector.ext fun j hj => by
    simpa [stringChars] using lane_stringData str ⟨j, hj⟩ (Nat.le_refl 16)

theorem hexval_hexchar (n : BitVec 4) : hexval (hexchar n) = some n.toNat := by
  revert n; decide +kernel

theorem hexchar_of_hexval (c : CharCode) : ∀ v, hexval c = some v → v < 16 ∧ hexchar (BitVec.ofNat 4 v) = c := by
  revert c; decide +kernel

end Sys2Proof.Machine
end

