-- ==== Sys2Proof/Laws/PerInstr.lean ====
section
/-! SUPPORT. The family EncodedOpcode: the opcode of rule R62 stands in bits `[3:0]` of every instruction's
word, one lemma for each constructor. -/

namespace Sys2Proof.Laws.EncodedOpcode

/-- Rules R60, R62: `op` is bits `[3:0]`, and it is the instruction's opcode. -/
def Statement (i : Instr) : Prop :=
  (encode i).extractLsb' 0 4 = opcode i

/-- The opcode field of an encoded instruction is that of its fields. -/
theorem op_encode (i : Instr) : (encode i).extractLsb' 0 4 = (encodeFields i).op :=
  congrArg CmdFields.op (cmdFields_cmdWord (encodeFields i))

theorem rowenc (row : BitVec 8) : Statement (.rowenc row) := op_encode _
theorem rowdec (len : BitVec 8) (chars : BitVec 16) : Statement (.rowdec len chars) := op_encode _
theorem glyenc (image : BitVec 64) : Statement (.glyenc image) := op_encode _
theorem glydec (len : BitVec 8) (chars : BitVec 128) : Statement (.glydec len chars) := op_encode _
theorem ftinit : Statement .ftinit := op_encode _
theorem ftlookup (key : Key) : Statement (.ftlookup key) := op_encode _
theorem ftsetbit (key : Key) (row col : BitVec 3) (val : Bool) : Statement (.ftsetbit key row col val) := op_encode _
theorem ftstat : Statement .ftstat := op_encode _
theorem ftexport (index : BitVec 8) : Statement (.ftexport index) := op_encode _
theorem ftimpbegin (ty : TypeCode) : Statement (.ftimpbegin ty) := op_encode _
theorem ftimpentry (key : Key) (ty : TypeCode) (len : BitVec 8) (chars : BitVec 128) :
    Statement (.ftimpentry key ty len chars) := op_encode _
theorem ftimpcommit : Statement .ftimpcommit := op_encode _
theorem reservedC : Statement .reservedC := op_encode _
theorem reservedD : Statement .reservedD := op_encode _
theorem reservedE : Statement .reservedE := op_encode _
theorem reservedF : Statement .reservedF := op_encode _

end Sys2Proof.Laws.EncodedOpcode
end

