-- ==== Sys2Proof/Laws/Table.lean ====
section
/-! SUPPORT. The font table: what each operation over it can do, and that each keeps the invariant of rule
R25. -/

namespace Sys2Proof.Machine

/-- `FtFind` finds an entry with the key, or there is none. -/
theorem ftFind_cases (T : Table) (k : Key) :
    (ftFind T k = none ∧ k ∉ T.map Entry.key) ∨ ∃ i, ftFind T k = some i ∧ (ftRead T i).key = k := by
  cases h : ftFind T k with
  | none =>
    refine .inl ⟨rfl, ?_⟩
    simp only [ftFind, List.findFinIdx?_eq_none_iff] at h
    intro hk
    obtain ⟨e, he, rfl⟩ := List.mem_map.mp hk
    simpa using h e he
  | some i =>
    refine .inr ⟨i, rfl, ?_⟩
    simp only [ftFind, List.findFinIdx?_eq_some_iff] at h
    simpa [ftRead] using h.1

theorem ftFind_eq_none {T : Table} {k : Key} (h : k ∉ T.map Entry.key) : ftFind T k = none := by
  rcases ftFind_cases T k with ⟨h', _⟩ | ⟨i, _, hi⟩
  · exact h'
  · exact absurd (List.mem_map.mpr ⟨_, List.getElem_mem i.isLt, hi⟩) h

/-- With distinct keys, the index found is the index of the entry. -/
theorem ftFind_getElem {T : Table} (hT : (T.map Entry.key).Nodup) {n : Nat} {e : Entry} (h : T[n]? = some e) :
    ∃ hn : n < T.length, ftFind T e.key = some ⟨n, hn⟩ ∧ ftRead T ⟨n, hn⟩ = e := by
  obtain ⟨hn, he⟩ := List.getElem?_eq_some_iff.mp h
  refine ⟨hn, ?_, he⟩
  rcases ftFind_cases T e.key with ⟨_, h'⟩ | ⟨i, hi, hk⟩
  · exact absurd (List.mem_map.mpr ⟨_, List.getElem_mem hn, congrArg Entry.key he⟩) h'
  · have : i.val = n := by
      refine (hT.getElem_inj_iff (hi := by simp) (hj := by simpa using hn)).mp ?_
      simpa [ftRead, he] using hk
    rw [hi]
    exact congrArg some (Fin.ext this)

@[simp] theorem ftWrite_length (T : Table) (i : Fin T.length) (g : Glyph) : (ftWrite T i g).length = T.length := by
  simp [ftWrite]

@[simp] theorem ftWrite_keys (T : Table) (i : Fin T.length) (g : Glyph) :
    (ftWrite T i g).map Entry.key = T.map Entry.key := by
  simp only [ftWrite, List.map_set]
  apply List.ext_getElem <;> simp [List.getElem_set, ftRead]
  rintro n hn rfl
  rfl

@[simp] theorem ftAppend_keys (T : Table) (k : Key) (g : Glyph) :
    (ftAppend T k g).map Entry.key = T.map Entry.key ++ [k] := by
  simp [ftAppend]

@[simp] theorem defaultTable_keys (ks : List Key) : (defaultTable ks).map Entry.key = ks := by
  simp [defaultTable, Function.comp_def]

@[simp] theorem defaultTable_length (ks : List Key) : (defaultTable ks).length = ks.length := by
  simp [defaultTable]

/-! ## The invariant of rule R25 -/

theorem nil_wf (cap : Nat) : Table.wf cap [] := by
  simp [Table.wf]

theorem ftWrite_wf {cap : Nat} {T : Table} (h : Table.wf cap T) (i : Fin T.length) (g : Glyph) :
    Table.wf cap (ftWrite T i g) := by
  simpa [Table.wf] using h

theorem ftAppend_wf {cap : Nat} {T : Table} (h : Table.wf cap T) {k : Key} (hk : k ∉ T.map Entry.key)
    (hc : T.length ≠ cap) (g : Glyph) : Table.wf cap (ftAppend T k g) := by
  refine ⟨?_, ?_⟩
  · rw [ftAppend_keys, List.nodup_append]
    refine ⟨h.1, by simp, fun a ha b hb => ?_⟩
    rw [List.mem_singleton.mp hb]
    exact ne_of_mem_of_not_mem ha hk
  · have := h.2
    simp only [ftAppend, List.length_append, List.length_singleton]
    omega

theorem defaultTable_wf {cap : Nat} {ks : List Key} (hn : ks.Nodup) (hc : ks.length ≤ cap) :
    Table.wf cap (defaultTable ks) := by
  simpa [Table.wf] using ⟨hn, hc⟩

/-! ## Staging -/

/-- All that placing a glyph can do: write at the key's slot, append, or find the table full. -/
theorem placeGlyph_cases (cap : Nat) (T : Table) (k : Key) (g : Glyph) :
    (∃ i, ftFind T k = some i ∧ (ftRead T i).key = k ∧ placeGlyph cap T k g = .ok (ftWrite T i g)) ∨
    (k ∉ T.map Entry.key ∧ T.length = cap ∧ placeGlyph cap T k g = .error (errTableFull k)) ∨
    (k ∉ T.map Entry.key ∧ T.length ≠ cap ∧ placeGlyph cap T k g = .ok (ftAppend T k g)) := by
  rcases ftFind_cases T k with ⟨h, hk⟩ | ⟨i, h, hk⟩
  · by_cases hc : T.length = cap
    · exact .inr (.inl ⟨hk, hc, by simp only [placeGlyph, h, hc, if_true]⟩)
    · exact .inr (.inr ⟨hk, hc, by simp only [placeGlyph, h, hc, if_false]⟩)
  · exact .inl ⟨i, h, hk, by simp only [placeGlyph, h]⟩

/-- All that staging a string can do: its error with the key, or the decoded glyph placed. -/
theorem stageString_cases (cap : Nat) (m : Member) (T : Table) :
    (∃ e, decodeGlyph m.len (stringChars m.chars) = .error e ∧ stageString cap m T = .error { e with key := m.key }) ∨
    (∃ g, decodeGlyph m.len (stringChars m.chars) = .ok g ∧ stageString cap m T = placeGlyph cap T m.key g) := by
  unfold stageString
  cases h : decodeGlyph m.len (stringChars m.chars) with
  | error e => exact .inl ⟨e, rfl, rfl⟩
  | ok g => exact .inr ⟨g, rfl, rfl⟩

theorem stageString_wf {cap : Nat} {m : Member} {T T' : Table} (h : Table.wf cap T)
    (hs : stageString cap m T = .ok T') : Table.wf cap T' := by
  rcases stageString_cases cap m T with ⟨e, _, he⟩ | ⟨g, _, hg⟩
  · rw [he] at hs; cases hs
  · rw [hg] at hs
    rcases placeGlyph_cases cap T m.key g with ⟨i, _, _, h'⟩ | ⟨_, _, h'⟩ | ⟨hk, hc, h'⟩ <;> rw [h'] at hs <;> cases hs
    · exact ftWrite_wf h i g
    · exact ftAppend_wf h hk hc g

/-- All that one member can do to a session (rule R146): stage its glyph, record an error, or change
nothing. -/
theorem stageMember_cases (cap : Nat) (m : Member) (T : Table) (err : Option ErrRecord) :
    (∃ T', err = none ∧ m.ty = typeString ∧ stageString cap m T = .ok T' ∧ stageMember cap m T err = (T', none)) ∨
    (∃ e, err = none ∧ m.ty = typeString ∧ stageString cap m T = .error e ∧ stageMember cap m T err = (T, some e)) ∨
    (m.ty ≠ typeString ∧ (∀ e, err = some e → e.status ≠ .validNotString) ∧
      stageMember cap m T err = (T, some (errNotString m.key m.ty))) ∨
    (∃ e, err = some e ∧ (m.ty = typeString ∨ e.status = .validNotString) ∧
      stageMember cap m T err = (T, some e)) := by
  cases err with
  | none =>
    by_cases ht : m.ty = typeString
    · cases hs : stageString cap m T with
      | ok T' => exact .inl ⟨T', rfl, ht, rfl, by simp [stageMember, ht, hs]⟩
      | error e => exact .inr (.inl ⟨e, rfl, ht, rfl, by simp [stageMember, ht, hs]⟩)
    · exact .inr (.inr (.inl ⟨ht, by simp, by simp [stageMember, ht]⟩))
  | some e =>
    by_cases hv : e.status = .validNotString
    · exact .inr (.inr (.inr ⟨e, rfl, .inr hv, by simp [stageMember, hv]⟩))
    · by_cases ht : m.ty = typeString
      · exact .inr (.inr (.inr ⟨e, rfl, .inl ht, by simp [stageMember, hv, ht]⟩))
      · exact .inr (.inr (.inl ⟨ht, by simpa using hv, by simp [stageMember, hv, ht]⟩))

/-- Staging a member keeps the staging table well formed. -/
theorem stageMember_wf {cap : Nat} {m : Member} {T : Table} (h : Table.wf cap T) (err : Option ErrRecord) :
    Table.wf cap (stageMember cap m T err).1 := by
  rcases stageMember_cases cap m T err with ⟨T', _, _, hs, h'⟩ | ⟨e, _, _, _, h'⟩ | ⟨_, _, h'⟩ | ⟨e, _, _, h'⟩ <;>
    rw [h']
  · exact stageString_wf h hs
  all_goals exact h

end Sys2Proof.Machine
end

