-- ==== Sys2Proof/Tests/Slice0.lean ====
section
/-! SUPPORT. Small tests of the model, their expected results taken from the spec's own vectors
(95_test_vectors.md), and for each statement with hypotheses a witness that meets them. -/

-- one test after another: each needs a thread's stack, and the memory limit bounds the stacks held at once
set_option Elab.async false

namespace Sys2Proof.Machine.Tests

/-! ## Helpers -/

/-- A small instance: `TABLE_CAP` = 2, as in vector V13. -/
def small (ft : Table) : State :=
  { params := { tableCap := 2, alphabet := [0x41, 0x42] }
    ft := ft, impOpen := false, st := [], impErr := none, port := [], rsps := [] }

/-- The same inside an import session. -/
def inSession (ft st : Table) (err : Option ErrRecord) : State :=
  { small ft with impOpen := true, st := st, impErr := err }

def entry (k : Key) (G : Image) : Entry := { key := k, glyph := glyphOfImage G }

/-- `{"A": "183c666666667e66", "?": "ff00000000000000"}`, the table of program P3. -/
def tableP3 : Table := [entry 0x41 0x183c666666667e66, entry 0x3f 0xff00000000000000]

def zeros16 : List Char := List.replicate 16 '0'

/-- The state an outcome ends in, and the last response word on the port. -/
def stateOf (o : Host.Outcome State Fault Refusal) : Option State :=
  match o with
  | .next t => some t
  | _ => none

def lastOf (o : Host.Outcome State Fault Refusal) : Option RspWord :=
  (stateOf o).bind fun t => t.rsps.getLast?

/-! ## WellFormed: each check refuses an ill-formed term -/

theorem smoke_params_well_formed : Config.Params.wf { tableCap := 128, alphabet := Config.known66 } :=
  ⟨Config.known66_alphabetOk, by decide⟩

theorem smoke_repeated_key : ¬ Config.Params.wf { tableCap := 128, alphabet := 0x61 :: Config.known66 } :=
  fun h => (List.nodup_cons.mp h.1.1).1 (by decide +kernel)

theorem smoke_known_key_missing : ¬ Config.Params.wf { tableCap := 128, alphabet := [0x41] } :=
  fun h => absurd (h.1.2.1 0x61 (by decide +kernel)) (by decide)

theorem smoke_alphabet_over_capacity : ¬ Config.Params.wf { tableCap := 65, alphabet := Config.known66 } :=
  fun h => absurd h.1.2.2 (by decide +kernel)

theorem smoke_capacity_over_255 : ¬ Config.Params.wf { tableCap := 256, alphabet := Config.known66 } :=
  fun h => absurd h.2 (by decide)

theorem smoke_members_without_object :
    ¬ Payload.wf { top := typeArray, members := [otherMember 0x41 typeNumber] } := by decide

theorem smoke_table_repeated_key : ¬ Table.wf 2 [entry 0x41 0, entry 0x41 1] := by decide

theorem smoke_table_over_capacity : ¬ Table.wf 1 [entry 0x41 0, entry 0x42 0] := by decide

/-! ## Decode: a word for each constructor, written out from rules R60 and R62 or taken from P1 to P5 -/

theorem test_decode_rowenc : decode 0x0000000000000000000000000000008100000000000000 = .rowenc 0x81 := by decide
theorem test_decode_rowdec :
    decode 0x0000000000000000000000000000313800000000020001 = .rowdec 2 0x3138 := by decide
theorem test_decode_glyenc :
    decode 0x0000000000000000183c666666667e6600000000000002 = .glyenc 0x183c666666667e66 := by decide
theorem test_decode_glydec :
    decode 0x00366537363636363636363663333831000000000f0003 = .glydec 15 0x00366537363636363636363663333831 := by
  decide
theorem test_decode_ftinit : decode 0x0000000000000000000000000000000000000000000004 = .ftinit := by decide
theorem test_decode_ftlookup : decode 0x0000000000000000000000000000000000004100000005 = .ftlookup 0x41 := by decide
theorem test_decode_ftsetbit :
    decode 0x0000000000000000000000000000000000004100001a86 = .ftsetbit 0x41 3 2 true := by decide
theorem test_decode_ftstat : decode 0x0000000000000000000000000000000000000000000007 = .ftstat := by decide
theorem test_decode_ftexport : decode 0x000000000000000000000000000000000000001a000008 = .ftexport 26 := by decide
theorem test_decode_ftimpbegin :
    decode 0x0000000000000000000000000000000000000000000019 = .ftimpbegin typeArray := by decide
theorem test_decode_ftimpentry :
    decode 0x7a7a303030303030303030303030303000003f0010002a
      = .ftimpentry 0x3f typeString 16 0x7a7a3030303030303030303030303030 := by decide
theorem test_decode_ftimpcommit :
    decode 0x000000000000000000000000000000000000000000000b = .ftimpcommit := by decide
theorem test_decode_reserved :
    [decode 0xC, decode 0xD, decode 0xE, decode 0xF] = [.reservedC, .reservedD, .reservedE, .reservedF] := by decide

theorem test_encode_p2_setbit :
    encode (.ftsetbit 0x41 7 7 true) = 0x0000000000000000000000000000000000004100003f86 := by decide
theorem test_encode_p4_entry :
    encode (.ftimpentry 0x42 typeNumber 0 0) = 0x000000000000000000000000000000000000420000003a := by decide

theorem test_table_word_decodes : decodeTableWord 184 0x4100001a86 = some (.ftsetbit 0x41 3 2 true) := by
  decide +kernel

/-! ## The codec: vectors V1 to V4, programs P1 -/

theorem test_rowenc_81 : lastOf (exec (.rowenc 0x81) (small [])) = some 0x0000000000000000000000000000313800000000020000 := by
  decide +kernel
theorem test_rowenc_keeps_leading_zero : (rowencRsp 0x0f).data = 0x6630 := by decide +kernel
theorem test_rowdec_second_digit_bad :
    lastOf (exec (.rowdec 2 0x4738) (small [])) = some 0x0000000000000000000000000000000000000001020202 := by
  decide +kernel
theorem test_rowdec_length_before_digits :
    lastOf (exec (.rowdec 3 0x6767) (small [])) = some (rspWord { status := .formatLen, exp := 2, len := 3 }) := by
  decide +kernel
theorem test_glyenc_source_example :
    lastOf (exec (.glyenc 0x183c666666667e66) (small []))
      = some 0x3636653736363636363636366333383100000000100000 := by decide +kernel
/-- S4: row 7 all on is the first chunk of the string. -/
theorem test_glyenc_bottom_row_first :
    (glyencRsp 0xff00000000000000).data = presentChars ('f' :: 'f' :: List.replicate 14 '0') := by decide +kernel
theorem test_glydec_length_15 :
    lastOf (exec (.glydec 15 0x00366537363636363636363663333831) (small []))
      = some 0x00000000000000000000000000000000000000000f1001 := by decide +kernel
/-- V4: "183c66666x667e6G", bad characters at 9 and 15. -/
theorem test_glydec_lowest_bad_index :
    lastOf
      (exec (scriptGlydec ['1', '8', '3', 'c', '6', '6', '6', '6', '6', 'x', '6', '6', '7', 'e', '6', 'G']) (small []))
      = some (rspWord { status := .formatDigit, exp := 16, len := 16, index := 9 }) := by decide +kernel

/-! ## The font table: vectors V5 to V8, programs P2 and P3 -/

theorem test_ftinit_fills_and_closes :
    (stateOf (exec .ftinit (inSession tableP3 tableP3 none))).map (fun t => (t.ft, t.impOpen, t.st, t.rsps))
      = some ([entry 0x41 0, entry 0x42 0], false, [], [0x0000000000000000000000000000000000000002000000]) := by
  decide +kernel
theorem test_ftlookup_slot_1 :
    lastOf (exec (.ftlookup 0x3f) (small tableP3)) = some 0x0000000000000000ff0000000000000000003f01000000 := by
  decide +kernel
theorem test_ftlookup_absent :
    lastOf (exec (.ftlookup 0x42) (small tableP3)) = some 0x0000000000000000000000000000000000004200000005 := by
  decide +kernel
/-- V5: row 3, column 2 is image bit 29. -/
theorem test_ftsetbit_image_bit :
    (stateOf (exec (.ftsetbit 0x41 3 2 true) (small [entry 0x41 0]))).map (fun t => t.ft) = some [entry 0x41 0x20000000] := by
  decide +kernel
theorem test_ftsetbit_clears_the_top_left_bit :
    (stateOf (exec (.ftsetbit 0x41 0 0 false) (small [entry 0x41 0x81]))).map (fun t => t.ft) = some [entry 0x41 0x01] := by
  decide +kernel
theorem test_ftstat_in_session :
    lastOf (exec .ftstat (inSession tableP3 [] none)) = some 0x0000000000000000000000000000000000000002000080 := by
  decide +kernel
theorem test_ftexport_slot_1 :
    lastOf (exec (.ftexport 1) (small tableP3)) = some 0x3030303030303030303030303030666600003f01100000 := by
  decide +kernel
theorem test_ftexport_past_the_end :
    lastOf (exec (.ftexport 2) (small tableP3)) = some 0x0000000000000000000000000000000000000002000008 := by
  decide +kernel

/-! ## The import session: vectors V9 to V13, programs P3 to P5 -/

theorem test_ftimpbegin_array :
    lastOf (exec (.ftimpbegin typeArray) (small [])) = some 0x0000000000000000000000000000000000000000000013 := by
  decide +kernel
theorem test_ftimpbegin_restarts :
    (stateOf (exec (.ftimpbegin typeObject) (inSession [] tableP3 none))).map (fun t => (t.impOpen, t.st))
      = some (true, []) := by decide +kernel
theorem test_ftimpentry_no_session :
    lastOf (exec (entryCommand (stringMember 0x41 zeros16)) (small []))
      = some 0x0000000000000000000000000000000000000000000007 := by decide +kernel
/-- P4: a non-string outranks an earlier bad string. -/
theorem test_ftimpentry_non_string_outranks :
    (stateOf (exec (.ftimpentry 0x42 typeNumber 0 0) (inSession [] [] (some (errFormatLen 16 10))))).map (fun t => t.impErr)
      = some (some (errNotString 0x42 typeNumber)) := by decide +kernel
theorem test_ftimpcommit_replaces :
    (stateOf (exec .ftimpcommit (inSession [] tableP3 none))).map (fun t => (t.ft, t.impOpen, t.st))
      = some (tableP3, false, []) := by decide +kernel
/-- P4: FORMAT_LEN exp=16 len=10 key=0x41, the live table kept. -/
theorem test_ftimpcommit_reports :
    (stateOf
      (exec .ftimpcommit
        (inSession tableP3 [] (some { status := .formatLen, exp := 16, len := 10, key := 0x41 })))).map
      (fun t => (t.ft, t.rsps)) = some (tableP3, [0x00000000000000000000000000000000000041000a1001]) := by
  decide +kernel
/-- V13: the repeated key needs no slot, the third key finds the table full. -/
theorem test_import_capacity_2 :
    importTable 2 typeObject
        [stringMember 0x41 zeros16, stringMember 0x42 zeros16, stringMember 0x41 (List.replicate 16 'f'),
          stringMember 0x3f zeros16]
      = .error (errTableFull 0x3f) := by rfl
/-- V12: the later glyph in the earlier slot. -/
theorem test_import_repeated_key :
    importTable 2 typeObject
        [stringMember 0x41 zeros16, stringMember 0x42 (List.replicate 16 '1'), stringMember 0x41 (List.replicate 16 'f')]
      = .ok [entry 0x41 0xffffffffffffffff, entry 0x42 0x1111111111111111] := by rfl

/-! ## Reserved opcodes, the port, pseudo-commands -/

theorem test_reserved_keeps_the_session :
    (stateOf (exec .reservedC (inSession tableP3 tableP3 none))).map (fun t => (t.ft, t.impOpen, t.st, t.rsps))
      = some (tableP3, true, tableP3, [0xf]) := by decide +kernel
theorem test_step_takes_the_first_command :
    (stateOf (step { small [] with port := [.command 0x7, .reset] })).map (fun t => (t.port, t.rsps))
      = some ([.reset], [0]) := by decide +kernel
theorem test_step_reset_in_session :
    (stateOf (step { inSession tableP3 tableP3 none with port := [.reset] })).map (fun t => (t.ft, t.impOpen, t.rsps))
      = some ([entry 0x41 0, entry 0x42 0], false, []) := by decide +kernel
theorem test_fetch_word_runs_first :
    lastOf (step (State.reset.withFetchWord 184 0xC)) = some 0xf := by rfl

/-! ## Witnesses: the hypotheses of the statements can be met -/

theorem wit_OpcodeSelectsTheCommandAndItsFields :
    ∀ n : Fin 16, (BitVec.ofNat 184 (0xABC0 + n.val)) &&& 0xF = BitVec.ofNat 184 n.val := by decide +kernel

theorem wit_UnreadBitsChangeNothing :
    (0x7 : CmdWord) ≠ 0xFF7 ∧
      (0x7 : CmdWord) &&& bitsRead ((0x7 : CmdWord).extractLsb' 0 4)
        = 0xFF7 &&& bitsRead ((0x7 : CmdWord).extractLsb' 0 4) := by decide

theorem wit_StatusNumbersAndUnusedOnes :
    ∃ t w, exec .ftstat (small []) = .next t ∧ t.rsps = (small []).rsps ++ [w] := ⟨_, _, rfl, rfl⟩

theorem wit_StepExecutesTheDecodedCommand :
    ({ small [] with port := [.command 0x7] } : State).port = .command 0x7 :: [] := rfl
theorem wit_StepTakesAReset : ({ small [] with port := [.reset] } : State).port = .reset :: [] := rfl
theorem wit_StepWithoutACommandChangesNothing : (small []).port = [] := rfl
theorem wit_RunExecutesTheCommandsInOrder :
    ({ small [] with port := [.command (encode .ftstat), .reset] } : State).port
      = [Instr.ftstat].map (fun i => PortEvent.command (encode i)) ++ [.reset] := rfl

theorem wit_FailedCommandChangesNoState :
    ∃ t w, exec .reservedC (small []) = .next t ∧ t.rsps = (small []).rsps ++ [w] ∧ rspStatus w ≠ statusCode .ok :=
  ⟨_, _, rfl, rfl, by decide +kernel⟩
/-- FTIMPBEGIN of an ARRAY in a session: the case that closes the session. -/
theorem wit_FailedCommandChangesNoState_begin :
    ∃ t w, exec (.ftimpbegin typeArray) (inSession [] tableP3 none) = .next t ∧
      t.rsps = (inSession [] tableP3 none).rsps ++ [w] ∧ rspStatus w = statusCode .validNotObject :=
  ⟨_, _, rfl, rfl, by decide +kernel⟩
/-- FTIMPCOMMIT of a recorded error: the other case that closes the session. -/
theorem wit_FailedCommandChangesNoState_commit :
    ∃ t w, exec .ftimpcommit (inSession [] [] (some (errTableFull 0x41))) = .next t ∧ t.rsps = [w] ∧
      rspStatus w ≠ statusCode .ok ∧ w = rspWord (errorRsp (errTableFull 0x41)) :=
  ⟨_, _, rfl, rfl, by decide +kernel, rfl⟩
theorem wit_FailedResponseCarriesNoData :
    ∃ t w, exec (.ftlookup 0x41) (small []) = .next t ∧ t.rsps = (small []).rsps ++ [w] ∧
      rspStatus w ≠ statusCode .ok := ⟨_, _, rfl, rfl, by decide +kernel⟩
theorem wit_CommandAnswersOnlyItsStatuses :
    (inSession [] [] (some (errFormatDigit 16 15))).sessionOk ∧
      ∃ t w, exec .ftimpcommit (inSession [] [] (some (errFormatDigit 16 15))) = .next t ∧ t.rsps = [] ++ [w] :=
  ⟨by decide +kernel, _, _, rfl, rfl⟩

theorem wit_StepKeepsTheInvariant :
    ∃ s t : State, s.Inv ∧ step s = .next t ∧ t.st = tableP3 :=
  ⟨{ inSession [] tableP3 none with params := { tableCap := 128, alphabet := Config.known66 } }, _,
    ⟨smoke_params_well_formed, nil_wf _, by decide +kernel, by decide⟩, rfl, rfl⟩
theorem wit_ResetHoldsEveryKnownKeyBlank :
    State.reset.params.wf ∧ State.reset.ft = defaultTable State.reset.params.alphabet ∧
      (0x3F : Key) ∈ Config.known66 :=
  ⟨⟨Config.defaultAlphabet.keys.property, by decide⟩, rfl, by decide +kernel⟩
theorem wit_FtinitLeavesTheResetState :
    ∃ t, exec .ftinit State.reset = .next t ∧ State.reset.params = Config.resetParams := ⟨_, rfl, rfl⟩

theorem wit_HexcharIsTheLowercaseDigit :
    (9 : BitVec 4).toNat ≤ 9 ∧ 10 ≤ (10 : BitVec 4).toNat ∧ hexchar 9 = 0x39 ∧ hexchar 10 = 0x61 := by decide
theorem wit_HexvalKnowsOnlyLowercaseDigits :
    [0x2f, 0x30, 0x39, 0x3a, 0x41, 0x60, 0x61, 0x66, 0x67, 0xe9].map hexval
      = [none, some 0, some 9, none, none, none, some 10, some 15, none, none] := by decide
theorem wit_RowCodecRoundTrips : hexval 0x38 ≠ none ∧ hexval 0x31 ≠ none := by decide
theorem wit_RowdecAnswersTheRowByteOrTheFirstError :
    ((255 : BitVec 8) ≠ 2 ∧ (1 : BitVec 8) ≠ 2) ∧ hexval ((0x3146 : BitVec 16).extractLsb' 0 8) = none ∧
      (hexval ((0x4738 : BitVec 16).extractLsb' 0 8) ≠ none ∧ hexval ((0x4738 : BitVec 16).extractLsb' 8 8) = none) ∧
      (hexval ((0x6666 : BitVec 16).extractLsb' 0 8) = some 15 ∧ hexval ((0x6666 : BitVec 16).extractLsb' 8 8) = some 15) := by
  decide

/-- Sixteen digits, and the same string with an uppercase letter in place of the last. -/
def good16 : WireString := stringChars (presentChars zeros16)
def bad16 : WireString := stringChars (presentChars (List.replicate 15 '0' ++ ['G']))

/-- The three clauses: a wrong length, the last chunk the first bad one, and no bad chunk. -/
theorem wit_DecodeGlyphTakesChunksInStringOrder :
    (17 : BitVec 8) ≠ 16 ∧
      ((∀ j : Fin 8, j < 7 → decodeRow 2 bad16[2 * j.val] bad16[2 * j.val + 1] = .ok (rowOfByte 0)) ∧
        decodeRow 2 bad16[14] bad16[15] = .error (errFormatDigit 2 1)) ∧
      ∀ k : Fin 8, decodeRow 2 good16[2 * k.val] good16[2 * k.val + 1] = .ok blankGlyph[7 - k.val] := by
  refine ⟨by decide, ⟨?_, rfl⟩, ?_⟩
  · intro j h; fin_cases j <;> first | rfl | exact absurd h (by decide)
  · intro k; fin_cases k <;> rfl
theorem wit_RowLevelLengthErrorNeverLeavesTheGlyphDecoder :
    decodeGlyph 16 bad16 = .error (errFormatDigit 16 15) ∧ decodeGlyph 2 good16 = .error (errFormatLen 16 2) :=
  ⟨rfl, rfl⟩
theorem wit_GlyphCodecRoundTrips : ∀ j : Fin 16, hexval good16[j] ≠ none := by decide +kernel
theorem wit_WireStringSpellsTheImageInHex : decodeGlyph 16 good16 = .ok blankGlyph := rfl
theorem wit_GlydecAnswersTheImageOrTheFirstError :
    (15 : BitVec 8) ≠ 16 ∧
      (hexval ((presentChars (List.replicate 15 '0' ++ ['G'])).extractLsb' (8 * 15) 8) = none ∧
        ∀ k : Fin 16, k < 15 → hexval ((presentChars (List.replicate 15 '0' ++ ['G'])).extractLsb' (8 * k) 8) ≠ none) ∧
      ∀ j : Fin 16, hexval ((presentChars zeros16).extractLsb' (8 * j) 8) ≠ none := by decide +kernel
theorem wit_CodecCommandsAreStateless : ∃ l c, Instr.glydec 16 0 = .glydec l c := ⟨_, _, rfl⟩

theorem wit_DefaultTableIsTheBlankAlphabet : ∃ p : Config.Params, p.wf := ⟨_, smoke_params_well_formed⟩
theorem wit_FtlookupAnswersTheEntry :
    ((small tableP3).ft.map Entry.key).Nodup ∧ (small tableP3).ft[1]? = some (entry 0x3f 0xff00000000000000) ∧
      0x42 ∉ (small tableP3).ft.map Entry.key := by decide +kernel
theorem wit_FtsetbitStoresTheOneBit :
    ((small tableP3).ft.map Entry.key).Nodup ∧ (small tableP3).ft[0]? = some (entry 0x41 0x183c666666667e66) ∧
      0x61 ∉ (small tableP3).ft.map Entry.key := by decide +kernel
theorem wit_FtsetbitIsIdempotentAndVisible :
    0x3f ∈ (small tableP3).ft.map Entry.key ∧ ∃ t, exec (.ftsetbit 0x3f 7 7 true) (small tableP3) = .next t :=
  ⟨by decide, _, rfl⟩
/-- The last slot, and the first index past it. -/
theorem wit_FtexportAnswersTheSlot :
    (small tableP3).ft[(1 : BitVec 8).toNat]? = some (entry 0x3f 0xff00000000000000) ∧
      (small tableP3).ft.length ≤ (2 : BitVec 8).toNat := by decide +kernel
theorem wit_ExportTableListsEveryEntry :
    tableP3[1]? = some (entry 0x3f 0xff00000000000000) ∧ exportTable tableP3 ≠ [] := by decide +kernel
theorem wit_PseudoExportListsTheLiveTable : (small tableP3).ft.length ≤ 255 := by decide
theorem wit_PseudoBlankClearsTheGlyph :
    ((small tableP3).ft.map Entry.key).Nodup ∧ (small tableP3).ft[1]? = some (entry 0x3f 0xff00000000000000) ∧
      0x42 ∉ (small tableP3).ft.map Entry.key := by decide +kernel
theorem wit_OnlyReplacementChangesTheKeys :
    ∃ t, exec .ftimpcommit (inSession [] tableP3 none) = .next t ∧ t.ft.map Entry.key ≠ [] :=
  ⟨_, rfl, by decide⟩

theorem wit_FtimpbeginOpensOrRejects : (0 : TypeCode) = typeObject ∧ (7 : TypeCode) ≠ typeObject := by decide

/-- The eight clauses in their order. -/
theorem wit_FtimpentryStagesOneMember :
    (small []).impOpen = false ∧
      (inSession [] [] (some (errNotString 0x41 typeNull))).impErr = some (errNotString 0x41 typeNull) ∧
      ((inSession [] [] (some (errTableFull 0x41))).impErr = some (errTableFull 0x41) ∧
        (errTableFull 0x41).status ≠ .validNotString ∧ typeNumber ≠ typeString) ∧
      ((inSession [] [] none).impOpen = true ∧ (inSession [] [] none).impErr = none) ∧
      decodeGlyph 16 bad16 = .error (errFormatDigit 16 15) ∧
      (decodeGlyph 16 good16 = .ok blankGlyph ∧ (tableP3.map Entry.key).Nodup ∧
        (inSession [] tableP3 none).st[1]? = some { key := 0x3f, glyph := glyphOfImage 0xff00000000000000 }) ∧
      (0x42 ∉ (inSession [] tableP3 none).st.map Entry.key ∧
        (inSession [] tableP3 none).st.length = (inSession [] tableP3 none).params.tableCap) ∧
      (0x42 ∉ (inSession [] [entry 0x41 0] none).st.map Entry.key ∧
        (inSession [] [entry 0x41 0] none).st.length ≠ (inSession [] [entry 0x41 0] none).params.tableCap) := by
  refine ⟨rfl, rfl, ⟨rfl, ?_, ?_⟩, ⟨rfl, rfl⟩, rfl, ⟨rfl, ?_, rfl⟩, ⟨?_, rfl⟩, ?_⟩ <;> decide
/-- The string operands of the clauses that decode. -/
theorem wit_FtimpentryStagesOneMember_strings :
    stringChars (presentChars zeros16) = good16 ∧ presentLen zeros16 = 16 ∧
      stringChars (presentChars (List.replicate 15 '0' ++ ['G'])) = bad16 := ⟨rfl, by decide, rfl⟩
theorem wit_FtimpcommitGivesTheVerdict :
    (small []).impOpen = false ∧
      ((inSession [] tableP3 none).impOpen = true ∧ (inSession [] tableP3 none).impErr = none) ∧
      (inSession [] [] (some (errTableFull 0x41))).impErr = some (errTableFull 0x41) := ⟨rfl, ⟨rfl, rfl⟩, rfl⟩

/-- The five clauses in their order. -/
theorem wit_ImportTableValidatesInOrder :
    typeArray ≠ typeObject ∧
      ((stringMember 0x41 []).ty = typeString ∧ (otherMember 0x42 typeNumber).ty ≠ typeString) ∧
      (importTable 2 typeObject [stringMember 0x41 zeros16] = .ok [entry 0x41 0] ∧
        decodeGlyph (stringMember 0x42 []).len (stringChars (stringMember 0x42 []).chars) = .error (errFormatLen 16 0)) ∧
      (importTable 1 typeObject [stringMember 0x41 zeros16] = .ok [entry 0x41 0] ∧
        decodeGlyph (stringMember 0x42 zeros16).len (stringChars (stringMember 0x42 zeros16).chars) = .ok blankGlyph ∧
        0x42 ∉ [entry 0x41 0].map Entry.key) ∧
      ((∀ x ∈ [stringMember 0x41 zeros16], x.ty = typeString) ∧ [stringMember 0x41 zeros16].length ≤ 1) := by
  refine ⟨by decide, ⟨rfl, by decide⟩, ⟨rfl, rfl⟩, ⟨rfl, rfl, by decide⟩, by decide, by decide⟩
theorem wit_ImportedTableHasFirstSlotsAndLastGlyphs :
    importTable 1 typeObject [stringMember 0x41 zeros16] = .ok [entry 0x41 0] := rfl

/-- A payload that is no object, a session with an edit among its members, and one with a member that is
no string. -/
theorem wit_SessionComputesImportTable :
    importTable 2 typeBoolean [] = .error (errNotObject typeBoolean) ∧
    (∃ u, execSeq [.ftimpbegin typeObject, entryCommand (stringMember 0x41 zeros16), .ftsetbit 0x3f 0 0 true]
        (small tableP3) = .next u) ∧
      importTable 2 typeObject
        ([entryCommand (stringMember 0x41 zeros16), .ftsetbit 0x3f 0 0 true].filterMap presentedMember)
        = .ok [entry 0x41 0] ∧
      (∃ u, execSeq [.ftimpbegin typeObject, entryCommand (otherMember 0x41 typeNull)] (small tableP3) = .next u) ∧
      importTable 2 typeObject ([entryCommand (otherMember 0x41 typeNull)].filterMap presentedMember)
        = .error (errNotString 0x41 typeNull) :=
  ⟨rfl, ⟨_, rfl⟩, rfl, ⟨_, rfl⟩, rfl⟩
theorem wit_PseudoImportReplacesTheTableOrNothing :
    importTable 2 typeObject [stringMember 0x41 zeros16] = .ok [entry 0x41 0] ∧
      importTable 2 typeNull [] = .error (errNotObject typeNull) := ⟨rfl, rfl⟩
theorem wit_OtherCommandsIgnoreTheSession :
    ∃ t, exec (.ftsetbit 0x41 0 0 true) (inSession tableP3 [] none) = .next t := ⟨_, rfl⟩
theorem wit_OnlyThreeCommandsChangeImpOpen :
    ∃ t, exec .ftimpcommit (inSession [] [] none) = .next t ∧ t.impOpen ≠ (inSession [] [] none).impOpen :=
  ⟨_, rfl, by decide⟩
theorem wit_StagingIsHiddenUntilTheCommit :
    ∃ t, exec (entryCommand (stringMember 0x41 zeros16)) (inSession [] [] none) = .next t := ⟨_, rfl⟩
theorem wit_ReservedOpcodesAnswerIllegalCmd :
    0xC ≤ ((0xABC : CmdWord).extractLsb' 0 4).toNat ∧ 0xC ≤ ((0xABF : CmdWord).extractLsb' 0 4).toNat ∧
      ({ small [] with port := [.command 0xABF] } : State).port = .command 0xABF :: [] := by decide
/-- A character of lane 15, one above U+00FF, and a string that is too long. -/
theorem wit_PresentedStringStandsInItsLanes :
    (List.replicate 15 '0' ++ ['f'])[15]? = some 'f' ∧ charCode 'Ω' = 0xFF ∧ (List.replicate 300 '0').length ≠ 16 := by
  decide +kernel

end Sys2Proof.Machine.Tests
end

/-! The scope of the block: every command completes with one response (rules R3, R166), and the default
table holds every key the source names (rule R26). -/

namespace Sys2Proof.Machine

/-! ## What each command of several outcomes can do -/

/-- All that FTSETBIT can do (rule R125): no entry with the key, or one Bit of the found entry's glyph. -/
theorem execFtsetbit_cases (key : Key) (row col : BitVec 3) (val : Bool) (s : State) :
    (ftFind s.ft key = none ∧ execFtsetbit key row col val s = .next (fail (errKeyNotFound key) s)) ∨
    ∃ i, ftFind s.ft key = some i ∧ (ftRead s.ft i).key = key ∧
      execFtsetbit key row col val s =
        .next (respond { key := key, index := slotCode i }
          (s.withFt (ftWrite s.ft i (setBit (ftRead s.ft i).glyph row.toFin col.toFin val)))) := by
  rcases ftFind_cases s.ft key with ⟨h, _⟩ | ⟨i, h, hk⟩
  · exact .inl ⟨h, by simp only [execFtsetbit, h]⟩
  · exact .inr ⟨i, h, hk, by simp only [execFtsetbit, h, hk]⟩

/-- All that FTIMPBEGIN can do (rule R145): refuse a value that is no object, or open a session. -/
theorem execFtimpbegin_cases (ty : TypeCode) (s : State) :
    (ty ≠ typeObject ∧ execFtimpbegin ty s = .next (fail (errNotObject ty) (closeSession s))) ∨
    (ty = typeObject ∧ execFtimpbegin ty s = .next (respond { flag := true } (openSession s))) := by
  by_cases ht : ty = typeObject
  · exact .inr ⟨ht, by simp [execFtimpbegin, ht]⟩
  · exact .inl ⟨ht, by simp [execFtimpbegin, ht]⟩

/-- All that FTIMPENTRY can do (rule R146): the protocol error with no session, or stage the member. -/
theorem execFtimpentry_cases (key : Key) (ty : TypeCode) (len : BitVec 8) (chars : BitVec 128) (s : State) :
    (s.impOpen = false ∧ execFtimpentry key ty len chars s = .next (fail errProtocol s)) ∨
    ∃ T err, s.impOpen = true ∧
      stageMember s.params.tableCap { key := key, ty := ty, len := len, chars := chars } s.st s.impErr = (T, err) ∧
      execFtimpentry key ty len chars s = .next (respond { flag := true } (s.withSession true T err)) := by
  cases ho : s.impOpen with
  | false => exact .inl ⟨rfl, by simp [execFtimpentry, ho]⟩
  | true => exact .inr ⟨_, _, rfl, Prod.mk.eta.symm, by simp only [execFtimpentry, ho, if_true]⟩

/-- All that FTIMPCOMMIT can do (rule R147): the protocol error with no session, the staged table made
live, or the recorded error reported. -/
theorem execFtimpcommit_cases (s : State) :
    (s.impOpen = false ∧ execFtimpcommit s = .next (fail errProtocol s)) ∨
    (s.impOpen = true ∧ s.impErr = none ∧
      execFtimpcommit s = .next (respond { index := slotCode s.st.length } (closeSession (s.withFt s.st)))) ∨
    ∃ e, s.impOpen = true ∧ s.impErr = some e ∧ execFtimpcommit s = .next (fail e (closeSession s)) := by
  cases ho : s.impOpen with
  | false => exact .inl ⟨rfl, by simp [execFtimpcommit, ho]⟩
  | true =>
    cases he : s.impErr with
    | none => exact .inr (.inl ⟨rfl, rfl, by simp [execFtimpcommit, ho, he]⟩)
    | some e => exact .inr (.inr ⟨e, rfl, rfl, by simp [execFtimpcommit, ho, he]⟩)

/-! ## One response to every command -/

/-- The command ends with exactly one response, and up to that response it has written neither the
parameters, nor the port, nor an earlier response (rules R3, R166). -/
def AnswersOnce (s : State) (o : Host.Outcome State Fault Refusal) : Prop :=
  ∃ r u, o = .next (respond r u) ∧ u.params = s.params ∧ u.port = s.port ∧ u.rsps = s.rsps

/-- A command that only answers, with its result or with its error, answers once. -/
theorem answersOnce_answer (result : Except ErrRecord Rsp) (s : State) :
    AnswersOnce s (.next (answer result s)) := by
  obtain ⟨r, h, _⟩ := answer_eq_respond result s
  exact ⟨r, s, congrArg _ h, rfl, rfl, rfl⟩

/-- An illegal command (rule R64) answers once. -/
theorem answersOnce_illegal (s : State) : AnswersOnce s (.next (illegal s)) :=
  answersOnce_answer (.error errIllegalCmd) s

theorem answersOnce_execFtsetbit (key : Key) (row col : BitVec 3) (val : Bool) (s : State) :
    AnswersOnce s (execFtsetbit key row col val s) := by
  rcases execFtsetbit_cases key row col val s with ⟨_, h⟩ | ⟨i, _, _, h⟩
  all_goals exact ⟨_, _, h, rfl, rfl, rfl⟩

theorem answersOnce_execFtimpbegin (ty : TypeCode) (s : State) : AnswersOnce s (execFtimpbegin ty s) := by
  rcases execFtimpbegin_cases ty s with ⟨_, h⟩ | ⟨_, h⟩
  all_goals exact ⟨_, _, h, rfl, rfl, rfl⟩

theorem answersOnce_execFtimpentry (key : Key) (ty : TypeCode) (len : BitVec 8) (chars : BitVec 128) (s : State) :
    AnswersOnce s (execFtimpentry key ty len chars s) := by
  rcases execFtimpentry_cases key ty len chars s with ⟨_, h⟩ | ⟨T, err, _, _, h⟩
  all_goals exact ⟨_, _, h, rfl, rfl, rfl⟩

theorem answersOnce_execFtimpcommit (s : State) : AnswersOnce s (execFtimpcommit s) := by
  rcases execFtimpcommit_cases s with ⟨_, h⟩ | ⟨_, _, h⟩ | ⟨e, _, _, h⟩
  all_goals exact ⟨_, _, h, rfl, rfl, rfl⟩

/-- Every command answers once, in every state. -/
theorem answersOnce_exec (i : Instr) (s : State) : AnswersOnce s (exec i s) := by
  cases i with
  | rowenc row => exact answersOnce_answer (.ok (rowencRsp row)) s
  | rowdec len chars => exact answersOnce_answer (rowdecResult len chars) s
  | glyenc image => exact answersOnce_answer (.ok (glyencRsp image)) s
  | glydec len chars => exact answersOnce_answer (glydecResult len chars) s
  | ftinit => exact ⟨_, resetBlock s, rfl, rfl, rfl, rfl⟩
  | ftlookup key => exact answersOnce_answer (lookupResult s.ft key) s
  | ftsetbit key row col val => exact answersOnce_execFtsetbit key row col val s
  | ftstat => exact answersOnce_answer (.ok (statusView s)) s
  | ftexport index => exact answersOnce_answer (exportResult s.ft index) s
  | ftimpbegin ty => exact answersOnce_execFtimpbegin ty s
  | ftimpentry key ty len chars => exact answersOnce_execFtimpentry key ty len chars s
  | ftimpcommit => exact answersOnce_execFtimpcommit s
  | reservedC | reservedD | reservedE | reservedF => exact answersOnce_illegal s

/-- The next state of a command, with what it shares with the state before. -/
theorem exec_completes (i : Instr) (s : State) :
    ∃ (t : State) (w : RspWord),
      exec i s = .next t ∧ t.rsps = s.rsps ++ [w] ∧ t.params = s.params ∧ t.port = s.port := by
  obtain ⟨r, u, h, hparams, hport, hrsps⟩ := answersOnce_exec i s
  exact ⟨respond r u, rspWord r, h, by simp [hrsps], hparams, hport⟩

/-! ## A step by the first event of the port -/

theorem step_of_port_nil {s : State} (h : s.port = []) : step s = .next s := by
  simp only [step, takeEvent, h, execIdle]

theorem step_of_port_reset {s : State} {rest : List PortEvent} (h : s.port = .reset :: rest) :
    step s = .next (resetBlock { s with port := rest }) := by
  simp only [step, takeEvent, h, execResetEvent]

theorem step_of_port_command {s : State} {w : CmdWord} {rest : List PortEvent} (h : s.port = .command w :: rest) :
    step s = exec (decode w) { s with port := rest } := by
  simp only [step, takeEvent, h]

/-- No step stops the block, and none writes the parameters. -/
theorem step_completes (s : State) : ∃ t : State, step s = .next t ∧ t.params = s.params :=
  match h : s.port with
  | [] => ⟨s, step_of_port_nil h, rfl⟩
  | .reset :: _ => ⟨_, step_of_port_reset h, rfl⟩
  | .command w :: _ =>
    have ⟨t, _, ht, _, hparams, _⟩ := exec_completes (decode w) _
    ⟨t, (step_of_port_command h).trans ht, hparams⟩

/-- Settles O11: every command is one response on a state with the same parameters and port, by the case
of the instruction; a step is a command, a reset or nothing. -/
theorem everyCommandCompletesWithOneResponse : Obligations.EveryCommandCompletesWithOneResponse :=
  ⟨exec_completes, step_completes⟩

/-! ## The default table -/

/-- The image of the blank glyph is zero (rule R24). -/
@[simp] theorem glyphImage_blankGlyph : glyphImage blankGlyph = 0 := by
  decide +kernel

@[simp] theorem zext128_zero {n : Nat} : zext128 0#n = 0 := by
  simp [zext128]

theorem defaultTable_getElem? {ks : List Key} {n : Nat} {k : Key} (h : ks[n]? = some k) :
    (defaultTable ks)[n]? = some { key := k, glyph := blankGlyph } := by
  simp [defaultTable, h]

/-- With distinct keys, looking up the key of the entry in slot `n` answers that entry and `n` (rule R123). -/
theorem lookupResult_getElem {T : Table} (hT : (T.map Entry.key).Nodup) {n : Nat} {e : Entry} (h : T[n]? = some e) :
    lookupResult T e.key =
      .ok { key := e.key, index := slotCode n, data := zext128 (glyphImage e.glyph) } := by
  obtain ⟨_, hfind, hread⟩ := ftFind_getElem hT h
  simp only [lookupResult, hfind, hread]

/-- In the default table of distinct keys, each key is found in its slot with zero data (rules R120, R123). -/
theorem lookupResult_defaultTable {ks : List Key} (hks : ks.Nodup) {n : Nat} {k : Key} (h : ks[n]? = some k) :
    lookupResult (defaultTable ks) k = .ok { key := k, index := slotCode n, data := 0 } := by
  have hkeys : ((defaultTable ks).map Entry.key).Nodup := by simpa using hks
  simpa using lookupResult_getElem hkeys (defaultTable_getElem? h)

/-- The parameters of the reset state meet rule R4: the open alphabet carries its proof, and the default
`TABLE_CAP` is 128. -/
theorem resetParams_wf : Config.resetParams.wf :=
  ⟨Config.defaultAlphabet.keys.property, by decide⟩

/-- Settles O18: the default table holds the alphabet in slot order, its keys are distinct, and
`KNOWN66` is among them. -/
theorem resetHoldsEveryKnownKeyBlank : Obligations.ResetHoldsEveryKnownKeyBlank := by
  refine ⟨fun s hwf hft k hk => ?_, resetParams_wf, rfl⟩
  obtain ⟨⟨hnodup, hknown, _⟩, _⟩ := hwf
  obtain ⟨n, hn⟩ := List.mem_iff_getElem?.mp (hknown k hk)
  have hresult := lookupResult_defaultTable hnodup hn
  refine ⟨n, hn, ?_⟩
  calc exec (.ftlookup k) s
      = .next (answer (lookupResult (defaultTable s.params.alphabet) k) s) := by rw [← hft]; rfl
    _ = .next (respond { key := k, index := slotCode n, data := 0 } s) := by rw [hresult, answer_ok]

end Sys2Proof.Machine

/-! The state and its updates: what a command can write, the invariant of the tables and the session
(rules R25, R27), the port read in order (rule R49), and the places of the Bits in row bytes and images
(rules R22, R23). -/

namespace Sys2Proof.Machine

/-! ## The commands by what they write -/

/-- A command is one of the five that write state (rules R121, R125, R145 to R147), or it only answers, with
a response word computed from the live table and `imp_open` alone. -/
inductive CommandKind : Instr → Prop where
  | onlyAnswers {i : Instr} (word : Table → Bool → RspWord)
      (h : ∀ s, exec i s = .next { s with rsps := s.rsps ++ [word s.ft s.impOpen] }) : CommandKind i
  | ftinit : CommandKind .ftinit
  | ftsetbit (key : Key) (row col : BitVec 3) (val : Bool) : CommandKind (.ftsetbit key row col val)
  | ftimpbegin (ty : TypeCode) : CommandKind (.ftimpbegin ty)
  | ftimpentry (key : Key) (ty : TypeCode) (len : BitVec 8) (chars : BitVec 128) :
      CommandKind (.ftimpentry key ty len chars)
  | ftimpcommit : CommandKind .ftimpcommit

/-- For one result there is one response word, whatever the state. -/
theorem answer_word (result : Except ErrRecord Rsp) :
    ∃ w : RspWord, ∀ s : State, answer result s = { s with rsps := s.rsps ++ [w] } := by
  cases result with
  | ok r => exact ⟨rspWord r, fun _ => rfl⟩
  | error e => exact ⟨rspWord (errorRsp e), fun _ => rfl⟩

theorem CommandKind.of_result {i : Instr} (result : Table → Bool → Except ErrRecord Rsp)
    (h : ∀ s, exec i s = .next (answer (result s.ft s.impOpen) s)) : CommandKind i := by
  choose word hword using answer_word
  exact .onlyAnswers (fun T isOpen => word (result T isOpen)) fun s => by rw [h, hword]

theorem commandKind (i : Instr) : CommandKind i := by
  cases i with
  | ftinit => exact .ftinit
  | ftsetbit key row col val => exact .ftsetbit key row col val
  | ftimpbegin ty => exact .ftimpbegin ty
  | ftimpentry key ty len chars => exact .ftimpentry key ty len chars
  | ftimpcommit => exact .ftimpcommit
  | rowenc row => exact .of_result (fun _ _ => .ok (rowencRsp row)) fun _ => rfl
  | rowdec len chars => exact .of_result (fun _ _ => rowdecResult len chars) fun _ => rfl
  | glyenc image => exact .of_result (fun _ _ => .ok (glyencRsp image)) fun _ => rfl
  | glydec len chars => exact .of_result (fun _ _ => glydecResult len chars) fun _ => rfl
  | ftlookup key => exact .of_result (fun T _ => lookupResult T key) fun _ => rfl
  | ftstat => exact .of_result (fun T isOpen => .ok { index := slotCode T.length, flag := isOpen }) fun _ => rfl
  | ftexport index => exact .of_result (fun T _ => exportResult T index) fun _ => rfl
  | reservedC | reservedD | reservedE | reservedF => exact .of_result (fun _ _ => .error errIllegalCmd) fun _ => rfl

/-! ## The writing commands, an equation per case -/

theorem exec_ftsetbit_of_absent {key : Key} {s : State} (h : ftFind s.ft key = none) (row col : BitVec 3) (val : Bool) :
    exec (.ftsetbit key row col val) s = .next (fail (errKeyNotFound key) s) := by
  simp only [exec, execFtsetbit, h]

theorem exec_ftsetbit_of_found {key : Key} {s : State} {i : Fin s.ft.length} (h : ftFind s.ft key = some i)
    (row col : BitVec 3) (val : Bool) :
    exec (.ftsetbit key row col val) s =
      .next (respond { key := (ftRead s.ft i).key, index := slotCode i }
        (s.withFt (ftWrite s.ft i (setBit (ftRead s.ft i).glyph row.toFin col.toFin val)))) := by
  simp only [exec, execFtsetbit, h]

theorem exec_ftimpentry_of_closed {s : State} (h : s.impOpen = false) (key : Key) (ty : TypeCode) (len : BitVec 8)
    (chars : BitVec 128) : exec (.ftimpentry key ty len chars) s = .next (fail errProtocol s) := by
  simp [exec, execFtimpentry, h]

theorem exec_ftimpentry_of_open {s : State} {key : Key} {ty : TypeCode} {len : BitVec 8} {chars : BitVec 128}
    {T : Table} {err : Option ErrRecord} (h : s.impOpen = true)
    (hm : stageMember s.params.tableCap ⟨key, ty, len, chars⟩ s.st s.impErr = (T, err)) :
    exec (.ftimpentry key ty len chars) s = .next (respond { flag := true } (s.withSession true T err)) := by
  simp only [exec, execFtimpentry, h, hm, if_true]

theorem exec_ftimpcommit_of_closed {s : State} (h : s.impOpen = false) :
    exec .ftimpcommit s = .next (fail errProtocol s) := by
  simp [exec, execFtimpcommit, h]

theorem exec_ftimpcommit_of_staged {s : State} (h : s.impOpen = true) (he : s.impErr = none) :
    exec .ftimpcommit s = .next (respond { index := slotCode s.st.length } (closeSession (s.withFt s.st))) := by
  simp [exec, execFtimpcommit, h, he]

theorem exec_ftimpcommit_of_error {s : State} {e : ErrRecord} (h : s.impOpen = true) (he : s.impErr = some e) :
    exec .ftimpcommit s = .next (fail e (closeSession s)) := by
  simp [exec, execFtimpcommit, h, he]

/-! ## The records of an import session -/

/-- Every error of `decode_glyph`: the length error, or the digit error at one of the sixteen characters
(rule R107). -/
theorem decodeGlyph_error_cases {len : BitVec 8} {str : WireString} {e : ErrRecord}
    (h : decodeGlyph len str = .error e) :
    (len ≠ glyphHexLen ∧ e = errFormatLen glyphHexLen len) ∨
    ∃ j : Fin 16, e = errFormatDigit glyphHexLen (BitVec.ofNat 8 j) := by
  rcases decodeGlyph_cases len str with ⟨hl, he⟩ | ⟨k, e', _, _, hk, he⟩ | ⟨g, _, _, hg⟩
  · exact .inl ⟨hl, Except.error.inj (h.symm.trans he)⟩
  · obtain rfl : e = e' := Except.error.inj (h.symm.trans he)
    rcases decodeChunk_cases str k with ⟨_, hd⟩ | ⟨_, _, _, hd⟩ | ⟨_, _, _, _, hd⟩
    · exact .inr ⟨⟨2 * k, by omega⟩, Except.error.inj (hk.symm.trans hd)⟩
    · exact .inr ⟨⟨2 * k + 1, by omega⟩, Except.error.inj (hk.symm.trans hd)⟩
    · cases hk.symm.trans hd
  · cases h.symm.trans hg

theorem sessionError_of_decodeGlyph {len : BitVec 8} {str : WireString} {e : ErrRecord}
    (h : decodeGlyph len str = .error e) (key : Key) : sessionError { e with key := key } := by
  rcases decodeGlyph_error_cases h with ⟨hl, rfl⟩ | ⟨j, rfl⟩
  · exact .inr (.inl ⟨rfl, rfl, rfl, hl, rfl⟩)
  · refine .inr (.inr (.inl ⟨rfl, rfl, rfl, rfl, ?_⟩))
    have hj : j.val % 2 ^ 8 = j.val := Nat.mod_eq_of_lt (by omega)
    simp only [errFormatDigit, BitVec.toNat_ofNat, hj, j.isLt]

theorem sessionError_errTableFull (key : Key) : sessionError (errTableFull key) :=
  .inr (.inr (.inr ⟨rfl, rfl, rfl, rfl, rfl⟩))

theorem sessionError_errNotString {ty : TypeCode} (h : ty ≠ typeString) (key : Key) :
    sessionError (errNotString key ty) :=
  .inl ⟨rfl, h, rfl, rfl, rfl⟩

theorem sessionError_of_stageString {cap : Nat} {m : Member} {T : Table} {e : ErrRecord}
    (h : stageString cap m T = .error e) : sessionError e := by
  rcases stageString_cases cap m T with ⟨e', hd, hs⟩ | ⟨g, _, hs⟩ <;> rw [hs] at h
  · obtain rfl := Except.error.inj h
    exact sessionError_of_decodeGlyph hd m.key
  · rcases placeGlyph_cases cap T m.key g with ⟨_, _, _, hp⟩ | ⟨_, _, hp⟩ | ⟨_, _, hp⟩
    · cases hp.symm.trans h
    · obtain rfl := Except.error.inj (hp.symm.trans h)
      exact sessionError_errTableFull m.key
    · cases hp.symm.trans h

/-- Staging a member leaves a record an import can report, or none. -/
theorem sessionError_of_stageMember {cap : Nat} {m : Member} {T T' : Table} {err err' : Option ErrRecord}
    (h : ∀ e ∈ err, sessionError e) (hm : stageMember cap m T err = (T', err')) : ∀ e ∈ err', sessionError e := by
  rcases stageMember_cases cap m T err with
    ⟨_, _, _, _, hs⟩ | ⟨e, _, _, he, hs⟩ | ⟨hty, _, hs⟩ | ⟨e, he, _, hs⟩ <;> cases hm.symm.trans hs
  · exact fun _ h => nomatch h
  · rintro _ ⟨⟩
    exact sessionError_of_stageString he
  · rintro _ ⟨⟩
    exact sessionError_errNotString hty m.key
  · exact he ▸ h

/-! ## The invariant -/

section Invariant
variable {s : State}

theorem State.Inv.respond (h : s.Inv) (r : Rsp) : (respond r s).Inv := h

theorem State.Inv.fail (h : s.Inv) (e : ErrRecord) : (fail e s).Inv := h

theorem State.Inv.withFt (h : s.Inv) {T : Table} (hT : Table.wf s.params.tableCap T) : (s.withFt T).Inv :=
  have ⟨hparams, _, hst, hsession⟩ := h
  ⟨hparams, hT, hst, hsession⟩

theorem State.Inv.ftWrite (h : s.Inv) (j : Fin s.ft.length) (g : Glyph) : (s.withFt (ftWrite s.ft j g)).Inv :=
  have ⟨_, hft, _⟩ := h
  h.withFt (ftWrite_wf hft j g)

theorem State.Inv.closeSession (h : s.Inv) : (closeSession s).Inv :=
  have ⟨hparams, hft, _, _⟩ := h
  ⟨hparams, hft, nil_wf _, fun _ => ⟨rfl, rfl⟩, fun _ h => nomatch h⟩

/-- An open session may hold any well-formed staging table and any record an import can report. -/
theorem State.Inv.withOpenSession (h : s.Inv) {T : Table} {err : Option ErrRecord}
    (hT : Table.wf s.params.tableCap T) (herr : ∀ e ∈ err, sessionError e) : (s.withSession true T err).Inv :=
  have ⟨hparams, hft, _, _⟩ := h
  ⟨hparams, hft, hT, fun h => (nomatch h), herr⟩

/-- The staged table is as well formed as the live one it replaces. -/
theorem State.Inv.commit (h : s.Inv) : (Machine.closeSession (s.withFt s.st)).Inv :=
  have ⟨_, _, hst, _⟩ := h
  (h.withFt hst).closeSession

theorem State.Inv.openSession (h : s.Inv) : (openSession s).Inv :=
  h.withOpenSession (nil_wf _) fun _ h => nomatch h

theorem State.Inv.resetBlock (h : s.Inv) : (resetBlock s).Inv :=
  have ⟨⟨hnodup, _, hlen⟩, _⟩ := h.1
  (h.withFt (defaultTable_wf hnodup hlen)).closeSession

theorem State.Inv.stageMember (h : s.Inv) {m : Member} {T : Table} {err : Option ErrRecord}
    (hm : stageMember s.params.tableCap m s.st s.impErr = (T, err)) : (s.withSession true T err).Inv := by
  have ⟨_, _, hst, _, herr⟩ := h
  have hT := stageMember_wf (m := m) hst s.impErr
  rw [hm] at hT
  exact h.withOpenSession hT (sessionError_of_stageMember herr hm)

/-- Every command keeps the invariant: those that only answer write nothing it speaks of, and each writing
command is an update that keeps it. -/
theorem State.Inv.exec (h : s.Inv) {i : Instr} {t : State} (ht : exec i s = .next t) : t.Inv := by
  cases commandKind i with
  | onlyAnswers word hword =>
    cases (hword s).symm.trans ht
    exact h
  | ftinit =>
    cases ht
    exact h.resetBlock.respond _
  | ftsetbit key row col val =>
    rcases execFtsetbit_cases key row col val s with ⟨_, he⟩ | ⟨j, _, _, he⟩ <;> cases he.symm.trans ht
    · exact h.fail _
    · exact (h.ftWrite j _).respond _
  | ftimpbegin ty =>
    rcases execFtimpbegin_cases ty s with ⟨_, he⟩ | ⟨_, he⟩ <;> cases he.symm.trans ht
    · exact h.closeSession.fail _
    · exact h.openSession.respond _
  | ftimpentry key ty len chars =>
    rcases execFtimpentry_cases key ty len chars s with ⟨_, he⟩ | ⟨T, err, _, hm, he⟩ <;> cases he.symm.trans ht
    · exact h.fail _
    · exact (h.stageMember hm).respond _
  | ftimpcommit =>
    rcases execFtimpcommit_cases s with ⟨_, he⟩ | ⟨_, _, he⟩ | ⟨e, _, _, he⟩ <;> cases he.symm.trans ht
    · exact h.fail _
    · exact h.commit.respond _
    · exact h.closeSession.fail _

/-- Every step keeps the invariant: the port is no part of it, and the event is nothing, a reset or a
command. -/
theorem State.Inv.step (h : s.Inv) {t : State} (ht : step s = .next t) : t.Inv := by
  have htaken (rest : List PortEvent) : State.Inv { s with port := rest } := h
  match hp : s.port with
  | [] =>
    cases (step_of_port_nil hp).symm.trans ht
    exact h
  | .reset :: rest =>
    cases (step_of_port_reset hp).symm.trans ht
    exact (htaken rest).resetBlock
  | .command w :: rest => exact (htaken rest).exec ((step_of_port_command hp).symm.trans ht)

end Invariant

/-- Settles O15: each update of the state keeps the invariant, so each command does, by the commands'
cases, and so each step. -/
theorem stepKeepsTheInvariant : Obligations.StepKeepsTheInvariant :=
  fun _ _ h ht => h.step ht

/-- Settles O16: the parameters of reset are admissible, so their default table is well formed. -/
theorem resetMeetsTheInvariant : Obligations.ResetMeetsTheInvariant :=
  have ⟨⟨hnodup, _, hlen⟩, _⟩ := resetParams_wf
  ⟨resetParams_wf, defaultTable_wf hnodup hlen, nil_wf _, fun _ => ⟨rfl, rfl⟩, fun _ h => nomatch h⟩

/-- Settles O17: the fields of the reset state, and the status view of it (rule R126). -/
theorem resetStateIsTheDefaultTable : Obligations.ResetStateIsTheDefaultTable := by
  have hlen : State.reset.ft.length = State.reset.params.alphabet.length := defaultTable_length _
  refine ⟨rfl, rfl, rfl, rfl, ?_, rfl⟩
  rw [← hlen]
  rfl

/-! ## What a command does not read or write -/

/-- Settles O35: each codec command answers one result, fixed by its operands. -/
theorem codecCommandsAreStateless : Obligations.CodecCommandsAreStateless := by
  rintro i (⟨row, rfl⟩ | ⟨len, chars, rfl⟩ | ⟨image, rfl⟩ | ⟨len, chars, rfl⟩)
  · exact ⟨rspWord (rowencRsp row), fun _ => rfl⟩
  · obtain ⟨w, hw⟩ := answer_word (rowdecResult len chars)
    exact ⟨w, fun s => congrArg _ (hw s)⟩
  · exact ⟨rspWord (glyencRsp image), fun _ => rfl⟩
  · obtain ⟨w, hw⟩ := answer_word (glydecResult len chars)
    exact ⟨w, fun s => congrArg _ (hw s)⟩

/-- Settles O56: a command that only answers, FTSETBIT and FTIMPENTRY leave `imp_open` as it is. -/
theorem onlyThreeCommandsChangeImpOpen : Obligations.OnlyThreeCommandsChangeImpOpen := by
  intro i s t ht hne
  cases commandKind i with
  | onlyAnswers word hword =>
    cases (hword s).symm.trans ht
    exact absurd rfl hne
  | ftinit => exact .inl rfl
  | ftsetbit key row col val =>
    rcases execFtsetbit_cases key row col val s with ⟨_, he⟩ | ⟨_, _, _, he⟩
    all_goals
      cases he.symm.trans ht
      exact absurd rfl hne
  | ftimpbegin ty => exact .inr (.inr ⟨ty, rfl⟩)
  | ftimpentry key ty len chars =>
    rcases execFtimpentry_cases key ty len chars s with ⟨_, he⟩ | ⟨_, _, hopen, _, he⟩ <;> cases he.symm.trans ht
    · exact absurd rfl hne
    · exact absurd hopen.symm hne
  | ftimpcommit => exact .inr (.inl rfl)

/-- No command but FTIMPCOMMIT branches on the staging table, the pending error or the port: with others in
their place it does the same to every other field and leaves the port, and with the same staging it stages
the same. -/
theorem exec_replace_staging_port {i : Instr} {s t : State} (hi : i ≠ .ftimpcommit) (ht : exec i s = .next t)
    (S : Table) (err : Option ErrRecord) (p : List PortEvent) :
    ∃ (S' : Table) (err' : Option ErrRecord),
      exec i { s with st := S, impErr := err, port := p } = .next { t with st := S', impErr := err', port := p } ∧
      (S = s.st → err = s.impErr → S' = t.st ∧ err' = t.impErr) := by
  cases commandKind i with
  | onlyAnswers word hword =>
    cases (hword s).symm.trans ht
    exact ⟨S, err, hword _, fun hS herr => ⟨hS, herr⟩⟩
  | ftinit =>
    cases ht
    exact ⟨[], none, rfl, fun _ _ => ⟨rfl, rfl⟩⟩
  | ftsetbit key row col val =>
    refine ⟨S, err, ?_⟩
    cases hfind : ftFind s.ft key with
    | none =>
      cases (exec_ftsetbit_of_absent hfind row col val).symm.trans ht
      exact ⟨exec_ftsetbit_of_absent (s := { s with st := S, impErr := err, port := p }) hfind row col val,
        fun hS herr => ⟨hS, herr⟩⟩
    | some j =>
      cases (exec_ftsetbit_of_found hfind row col val).symm.trans ht
      exact ⟨exec_ftsetbit_of_found (s := { s with st := S, impErr := err, port := p }) hfind row col val,
        fun hS herr => ⟨hS, herr⟩⟩
  | ftimpbegin ty =>
    refine ⟨[], none, ?_⟩
    rcases execFtimpbegin_cases ty s with ⟨hty, he⟩ | ⟨rfl, he⟩ <;> cases he.symm.trans ht
    · exact ⟨congrArg _ (if_pos hty), fun _ _ => ⟨rfl, rfl⟩⟩
    · exact ⟨rfl, fun _ _ => ⟨rfl, rfl⟩⟩
  | ftimpentry key ty len chars =>
    rcases execFtimpentry_cases key ty len chars s with ⟨hopen, he⟩ | ⟨T, e, hopen, hm, he⟩ <;>
      cases he.symm.trans ht
    · exact ⟨S, err,
        exec_ftimpentry_of_closed (s := { s with st := S, impErr := err, port := p }) hopen key ty len chars,
        fun hS herr => ⟨hS, herr⟩⟩
    · refine ⟨_, _,
        exec_ftimpentry_of_open (s := { s with st := S, impErr := err, port := p }) hopen Prod.mk.eta.symm, ?_⟩
      rintro rfl rfl
      exact Prod.mk.inj hm
  | ftimpcommit => exact absurd rfl hi

/-- A command leaves the rest of the port as it is. -/
theorem exec_port {i : Instr} {s t : State} (ht : exec i s = .next t) : t.port = s.port := by
  obtain ⟨t', _, ht', _, _, hport⟩ := exec_completes i s
  cases ht.symm.trans ht'
  exact hport

/-- Settles O57: the case of `exec_replace_staging_port` that keeps the port. -/
theorem stagingIsHiddenUntilTheCommit : Obligations.StagingIsHiddenUntilTheCommit := by
  intro i s t S err hi ht
  obtain ⟨S', err', h, _⟩ := exec_replace_staging_port hi ht S err s.port
  exact ⟨S', err', by rw [h, exec_port ht]⟩

/-! ## The port read in order -/

theorem exec_ftimpcommit_replace_port {s t : State} (ht : exec .ftimpcommit s = .next t) (p : List PortEvent) :
    exec .ftimpcommit { s with port := p } = .next { t with port := p } := by
  rcases execFtimpcommit_cases s with ⟨hopen, he⟩ | ⟨hopen, herr, he⟩ | ⟨e, hopen, herr, he⟩ <;>
    cases he.symm.trans ht
  · exact exec_ftimpcommit_of_closed (s := { s with port := p }) hopen
  · exact exec_ftimpcommit_of_staged (s := { s with port := p }) hopen herr
  · exact exec_ftimpcommit_of_error (s := { s with port := p }) hopen herr

/-- No command reads the port: whatever waits there, the command does the same and leaves it. -/
theorem exec_replace_port {i : Instr} {s t : State} (ht : exec i s = .next t) (p : List PortEvent) :
    exec i { s with port := p } = .next { t with port := p } := by
  by_cases hi : i = .ftimpcommit
  · subst hi
    exact exec_ftimpcommit_replace_port ht p
  · obtain ⟨S', err', h, hsame⟩ := exec_replace_staging_port hi ht s.st s.impErr p
    obtain ⟨rfl, rfl⟩ := hsame rfl rfl
    exact h

/-- The encoder's word of every instruction decodes to it (rules R60, R62). -/
theorem decode_encode (i : Instr) : decode (encode i) = i := by
  rw [decode, encode, cmdFields_cmdWord]
  cases i <;> simp [encodeFields, decodeFields, opcode]

theorem execSeq_cons_of_next {i : Instr} {s t : State} (h : exec i s = .next t) (is : List Instr) :
    execSeq (i :: is) s = execSeq is t := by
  simp only [execSeq, h]

theorem run_succ_of_step {s t : State} (h : step s = .next t) (n : Nat) :
    Host.Core.run core (n + 1) s = Host.Core.run core n t := by
  have hcore : core.step s = .next t := h
  simp only [Host.Core.run, hcore]

/-- Settles O10, by induction on the commands: a step executes the first one, which neither reads nor
writes the port, and so leaves the others there. -/
theorem runExecutesTheCommandsInOrder : Obligations.RunExecutesTheCommandsInOrder := by
  intro is
  induction is with
  | nil =>
    rintro s rest rfl
    rfl
  | cons i is ih =>
    intro s rest hport
    obtain ⟨t, _, ht, _⟩ := exec_completes i s
    have hexec := exec_replace_port ht
    have hstep := (step_of_port_command hport).trans (decode_encode i ▸ hexec _)
    have hrun : Host.Core.run core (i :: is).length s = execSeq is { t with port := rest } :=
      (run_succ_of_step hstep _).trans (ih _ rest rfl)
    exact hrun.trans (execSeq_cons_of_next (hexec rest) is).symm

/-! ## Row bytes and images, bit by bit -/

/-- Bit `i` of the row byte's sequence is bit `7 - i` of the byte (rule R22). -/
theorem rowByte_getLsbD_sub (w : Row) (i : Fin 8) : (rowByte w).getLsbD (7 - i) = w[i] := by
  have h := rowByte_bits w ⟨7 - i, by omega⟩
  simpa [show 7 - (7 - i.val) = i.val by omega] using h

@[simp] theorem rowOfByte_rowByte (w : Row) : rowOfByte (rowByte w) = w :=
  row_ext fun i => by rw [rowOfByte_getElem, rowByte_getLsbD_sub]

@[simp] theorem rowByte_rowOfByte (b : BitVec 8) : rowByte (rowOfByte b) = b := by
  apply BitVec.eq_of_getLsbD_eq
  intro i hi
  have h := (rowByte_bits (rowOfByte b) ⟨i, hi⟩).trans (rowOfByte_getElem b ⟨7 - i, by omega⟩)
  simpa [show 7 - (7 - i) = i by omega] using h

theorem rowValue_eq_sum (w : Row) : rowValue w = ∑ i : Fin 8, (w[i]).toNat * 2 ^ (7 - i.val) := by
  rw [Fin.sum_univ_eight]
  rfl

theorem rowValue_le (w : Row) : rowValue w ≤ 255 := by
  rw [rowValue_eq_sum]
  calc ∑ i : Fin 8, (w[i]).toNat * 2 ^ (7 - i.val)
      ≤ ∑ i : Fin 8, 1 * 2 ^ (7 - i.val) := Finset.sum_le_sum fun i _ => Nat.mul_le_mul_right _ (Bool.toNat_le _)
    _ = 255 := by decide

theorem rowByte_toNat (w : Row) : (rowByte w).toNat = rowValue w := by
  have := rowValue_le w
  rw [rowByte, BitVec.toNat_ofNat, Nat.mod_eq_of_lt (by omega)]

/-- Settles O20: the row byte is settled by its eight bits, and `row_value` is its number. -/
theorem rowByteIsMostSignificantBitFirst : Obligations.RowByteIsMostSignificantBitFirst :=
  ⟨rowByte_getLsbD_sub, rowValue_eq_sum, fun w => ⟨rowByte_toNat w, rowValue_le w⟩, rowOfByte_rowByte,
    rowByte_rowOfByte, by decide⟩

/-- Settles O26: the Bits are those of a replicated `false`. -/
theorem blankGlyphIsTheZeroImage : Obligations.BlankGlyphIsTheZeroImage :=
  ⟨fun r c => by simp [blankGlyph], glyphImage_blankGlyph⟩

/-- A bit of a word is a bit of the lane it stands in. -/
theorem lane_getLsbD {n : Nat} (d : BitVec n) (r : Nat) {j : Nat} (hj : j < 8) :
    (lane d r).getLsbD j = d.getLsbD (8 * r + j) := by
  simp [lane, hj]

/-- Two images with the same eight lanes are the same. -/
theorem image_ext {G H : Image} (h : ∀ r : Fin 8, lane G r = lane H r) : G = H := by
  apply BitVec.eq_of_getLsbD_eq
  intro i hi
  have hbit := congrArg (fun b => b.getLsbD (i % 8)) (h ⟨i / 8, by omega⟩)
  simpa only [lane_getLsbD _ _ (Nat.mod_lt i (by decide)), Nat.div_add_mod] using hbit

@[simp] theorem glyphOfImage_glyphImage (g : Glyph) : glyphOfImage (glyphImage g) = g :=
  glyph_ext fun r c => by rw [glyphOfImage_getElem, lane_glyphImage, rowOfByte_rowByte]

@[simp] theorem glyphImage_glyphOfImage (G : Image) : glyphImage (glyphOfImage G) = G :=
  image_ext fun r => by rw [lane_glyphImage, glyphOfImage_getElem, rowByte_rowOfByte]

/-- Bit `(r, c)` of a Glyph is image bit `8 r + 7 - c` (rule R23). -/
theorem glyphImage_getLsbD (g : Glyph) (r c : Fin 8) : (glyphImage g).getLsbD (8 * r + 7 - c) = g[r][c] := by
  have hpos : 8 * r.val + 7 - c.val = 8 * r.val + (7 - c.val) := by omega
  rw [hpos, ← lane_getLsbD _ _ (by omega), lane_glyphImage, rowByte_getLsbD_sub]

/-- Settles O27: row `r` is lane `r`, and within the lane the Bits stand as in its row byte. -/
theorem glyphImageHoldsBitRCAtItsPlace : Obligations.GlyphImageHoldsBitRCAtItsPlace :=
  ⟨lane_glyphImage, glyphImage_getLsbD, glyphOfImage_glyphImage, glyphImage_glyphOfImage⟩

end Sys2Proof.Machine

/-! The font table as the block's memory: what is read back after a write (rules R6, R123, R125), and the
fields a host reads from a response (rule R61). -/

namespace Sys2Proof.Machine

/-! ## The fields of a response -/

@[simp] theorem rspStatus_rspWord (r : Rsp) : rspStatus (rspWord r) = statusCode r.status := by
  rw [rspStatus, rspWord_eq_cast, BitVec.extractLsb'_cast, extractLsb'_append_low _ _ _ rfl, BitVec.cast_eq]

@[simp] theorem rspKey_rspWord (r : Rsp) : rspKey (rspWord r) = r.key := by
  rw [rspKey, rspWord_eq_cast, BitVec.extractLsb'_cast]
  simp (disch := decide) only [extractLsb'_append_high, extractLsb'_append_low, Nat.reduceSub, BitVec.cast_eq]

@[simp] theorem rspData_rspWord (r : Rsp) : rspData (rspWord r) = r.data := by
  rw [rspData, rspWord_eq_cast, BitVec.extractLsb'_cast]
  simp (disch := decide) only [extractLsb'_append_high, Nat.reduceSub]
  exact BitVec.extractLsb'_eq_self

theorem zext128_getLsbD {n : Nat} (h : n ≤ 128) (v : BitVec n) (i : Nat) : (zext128 v).getLsbD i = v.getLsbD i := by
  rw [zext128, BitVec.getLsbD_setWidth]
  by_cases hi : i < 128
  · simp [hi]
  · simp [hi, BitVec.getLsbD_of_ge v i (by omega)]

/-! ## One Bit of a Glyph -/

@[simp] theorem setBit_getElem_same (g : Glyph) (r c : Fin 8) (v : Bool) : (setBit g r c v)[r][c] = v := by
  simp [setBit]

/-- Storing the value a Bit already has changes nothing. -/
theorem setBit_eq_self {g : Glyph} {r c : Fin 8} {v : Bool} (h : g[r][c] = v) : setBit g r c v = g := by
  subst h
  simp [setBit]

/-! ## A table after a write -/

/-- `FtFind` reads nothing but the keys in slot order (rule R122). -/
theorem map_val_ftFind (T : Table) (k : Key) :
    (ftFind T k).map Fin.val = (T.map Entry.key).findIdx? (· == k) := by
  rw [ftFind, List.findIdx?_map, List.findIdx?_eq_map_findFinIdx?_val]
  rfl

/-- A write keeps the keys, so each key is found in the slot where it was. -/
theorem ftFind_ftWrite {T : Table} {k : Key} {j : Fin T.length} (h : ftFind T k = some j) (i : Fin T.length)
    (g : Glyph) : ftFind (ftWrite T i g) k = some (j.cast (ftWrite_length T i g).symm) := by
  apply Option.map_injective Fin.val_injective
  rw [map_val_ftFind, ftWrite_keys, ← map_val_ftFind, h]
  rfl

@[simp] theorem ftRead_ftWrite_same (T : Table) (i : Fin T.length) (g : Glyph) :
    ftRead (ftWrite T i g) (i.cast (ftWrite_length T i g).symm) = { ftRead T i with glyph := g } :=
  List.getElem_set_self _

/-- Writing the glyph an entry already has changes nothing. -/
theorem ftWrite_eq_self {T : Table} {i : Fin T.length} {g : Glyph} (h : (ftRead T i).glyph = g) :
    ftWrite T i g = T := by
  subst h
  exact List.set_getElem_self i.isLt

/-! ## A Bit stored and read back -/

/-- The key is found and Bit `(row, col)` of its glyph is `val`. -/
def BitStored (T : Table) (key : Key) (row col : BitVec 3) (val : Bool) : Prop :=
  ∃ i, ftFind T key = some i ∧ (ftRead T i).key = key ∧ (ftRead T i).glyph[row.toFin][col.toFin] = val

/-- Setting the Bit in the found entry's glyph stores it. -/
theorem bitStored_ftWrite {T : Table} {key : Key} {i : Fin T.length} (hfind : ftFind T key = some i)
    (hk : (ftRead T i).key = key) (row col : BitVec 3) (val : Bool) :
    BitStored (ftWrite T i (setBit (ftRead T i).glyph row.toFin col.toFin val)) key row col val := by
  refine ⟨_, ftFind_ftWrite hfind i _, ?_⟩
  rw [ftRead_ftWrite_same]
  exact ⟨hk, setBit_getElem_same _ _ _ _⟩

section FtsetbitThenFtlookup
variable {s t : State} {key : Key} {row col : BitVec 3} {val : Bool}

/-- FTSETBIT of a key that is present stores its Bit (rule R125). -/
theorem bitStored_of_exec_ftsetbit (hkey : key ∈ s.ft.map Entry.key)
    (ht : exec (.ftsetbit key row col val) s = .next t) : BitStored t.ft key row col val := by
  rcases ftFind_cases s.ft key with ⟨_, habsent⟩ | ⟨i, hfind, hk⟩
  · exact absurd hkey habsent
  · cases (exec_ftsetbit_of_found hfind row col val).symm.trans ht
    exact bitStored_ftWrite hfind hk row col val

/-- FTSETBIT of a Bit that is stored already leaves the table as it is (rule R47). -/
theorem exec_ftsetbit_of_bitStored (h : BitStored s.ft key row col val) :
    ∃ u, exec (.ftsetbit key row col val) s = .next u ∧ u.ft = s.ft := by
  obtain ⟨i, hfind, _, hbit⟩ := h
  exact ⟨_, exec_ftsetbit_of_found hfind row col val, ftWrite_eq_self (setBit_eq_self hbit).symm⟩

theorem exec_ftlookup_of_found {i : Fin s.ft.length} (h : ftFind s.ft key = some i) :
    exec (.ftlookup key) s =
      .next (respond
        { key := (ftRead s.ft i).key
          index := slotCode i
          data := zext128 (glyphImage (ftRead s.ft i).glyph) } s) := by
  simp only [exec, execFtlookup, lookupResult, h, answer_ok]

/-- FTLOOKUP shows a stored Bit at its place in the image (rules R23, R123). -/
theorem exec_ftlookup_of_bitStored (h : BitStored s.ft key row col val) :
    ∃ (u : State) (w : RspWord), exec (.ftlookup key) s = .next u ∧ u.rsps = s.rsps ++ [w] ∧
      rspStatus w = statusCode .ok ∧ rspKey w = key ∧
      (rspData w).getLsbD (8 * row.toNat + 7 - col.toNat) = val := by
  obtain ⟨i, hfind, hk, hbit⟩ := h
  have hplace := (glyphImage_getLsbD (ftRead s.ft i).glyph row.toFin col.toFin).trans hbit
  refine ⟨_, _, exec_ftlookup_of_found hfind, respond_rsps _ _, rspStatus_rspWord _,
    (rspKey_rspWord _).trans hk, ?_⟩
  rw [rspData_rspWord, zext128_getLsbD (by decide)]
  exact hplace

end FtsetbitThenFtlookup

/-- Settles O41: FTSETBIT stores its Bit, storing a stored Bit changes nothing, and FTLOOKUP shows it. -/
theorem ftsetbitIsIdempotentAndVisible : Obligations.FtsetbitIsIdempotentAndVisible :=
  fun _ _ _ _ _ _ hkey ht =>
    have hstored := bitStored_of_exec_ftsetbit hkey ht
    ⟨exec_ftsetbit_of_bitStored hstored, exec_ftlookup_of_bitStored hstored⟩

end Sys2Proof.Machine

/-! The words of the port (30_encoding.md sections 1 and 2): the command each opcode selects, the bits a
command reads, and the fields a host reads from a response word (rules R60 to R64, R73). -/

namespace Sys2Proof

/-! ## The decoder, an equation per opcode (rule R62) -/

/-- The low lanes of `data` are the bits of the command word from 56 on (rule R60). -/
theorem data_setWidth (w : CmdWord) {n : Nat} (h : n ≤ 128) :
    (cmdFields w).data.setWidth n = w.extractLsb' 56 n :=
  BitVec.setWidth_extractLsb'_of_le h

section DecodeOfOp
variable {w : CmdWord}

/-- The decoder with `op` known: the row of the table that `op` selects (rule R62). -/
theorem decode_of_op {op : BitVec 4} (h : w.extractLsb' 0 4 = op) :
    decode w = decodeFields { cmdFields w with op := op } := by
  subst h
  rfl

theorem decode_rowenc (h : w.extractLsb' 0 4 = 0x0) : decode w = .rowenc (w.extractLsb' 56 8) :=
  (decode_of_op h).trans (congrArg Instr.rowenc (data_setWidth w (by decide)))

theorem decode_rowdec (h : w.extractLsb' 0 4 = 0x1) :
    decode w = .rowdec (w.extractLsb' 16 8) (w.extractLsb' 56 16) :=
  (decode_of_op h).trans (congrArg (Instr.rowdec _) (data_setWidth w (by decide)))

theorem decode_glyenc (h : w.extractLsb' 0 4 = 0x2) : decode w = .glyenc (w.extractLsb' 56 64) :=
  (decode_of_op h).trans (congrArg Instr.glyenc (data_setWidth w (by decide)))

theorem decode_glydec (h : w.extractLsb' 0 4 = 0x3) :
    decode w = .glydec (w.extractLsb' 16 8) (w.extractLsb' 56 128) :=
  decode_of_op h

theorem decode_ftinit (h : w.extractLsb' 0 4 = 0x4) : decode w = .ftinit :=
  decode_of_op h

theorem decode_ftlookup (h : w.extractLsb' 0 4 = 0x5) : decode w = .ftlookup (w.extractLsb' 32 21) :=
  decode_of_op h

theorem decode_ftsetbit (h : w.extractLsb' 0 4 = 0x6) :
    decode w = .ftsetbit (w.extractLsb' 32 21) (w.extractLsb' 11 3) (w.extractLsb' 8 3) (w.getLsbD 7) :=
  decode_of_op h

theorem decode_ftstat (h : w.extractLsb' 0 4 = 0x7) : decode w = .ftstat :=
  decode_of_op h

theorem decode_ftexport (h : w.extractLsb' 0 4 = 0x8) : decode w = .ftexport (w.extractLsb' 24 8) :=
  decode_of_op h

theorem decode_ftimpbegin (h : w.extractLsb' 0 4 = 0x9) : decode w = .ftimpbegin (w.extractLsb' 4 3) :=
  decode_of_op h

theorem decode_ftimpentry (h : w.extractLsb' 0 4 = 0xA) :
    decode w =
      .ftimpentry (w.extractLsb' 32 21) (w.extractLsb' 4 3) (w.extractLsb' 16 8) (w.extractLsb' 56 128) :=
  decode_of_op h

theorem decode_ftimpcommit (h : w.extractLsb' 0 4 = 0xB) : decode w = .ftimpcommit :=
  decode_of_op h

theorem decode_reservedC (h : w.extractLsb' 0 4 = 0xC) : decode w = .reservedC :=
  decode_of_op h

theorem decode_reservedD (h : w.extractLsb' 0 4 = 0xD) : decode w = .reservedD :=
  decode_of_op h

theorem decode_reservedE (h : w.extractLsb' 0 4 = 0xE) : decode w = .reservedE :=
  decode_of_op h

theorem decode_reservedF (h : w.extractLsb' 0 4 = 0xF) : decode w = .reservedF :=
  decode_of_op h

end DecodeOfOp

/-! ## Masked words -/

/-- A mask with ones over a whole field keeps the field. -/
theorem extractLsb'_masked {n start len : Nat} {m : BitVec n} (hm : m.extractLsb' start len = BitVec.allOnes len)
    (w : BitVec n) : (w &&& m).extractLsb' start len = w.extractLsb' start len := by
  rw [BitVec.extractLsb'_and, hm, BitVec.and_allOnes]

/-- Words that agree under a mask agree on every field the mask covers. -/
theorem extractLsb'_eq_of_masked_eq {n start len : Nat} {m w w' : BitVec n} (h : w &&& m = w' &&& m)
    (hm : m.extractLsb' start len = BitVec.allOnes len) : w.extractLsb' start len = w'.extractLsb' start len := by
  rw [← extractLsb'_masked hm w, h, extractLsb'_masked hm w']

/-- Words that agree under a mask agree on every bit the mask covers. -/
theorem getLsbD_eq_of_masked_eq {n i : Nat} {m w w' : BitVec n} (h : w &&& m = w' &&& m)
    (hm : m.getLsbD i = true) : w.getLsbD i = w'.getLsbD i := by
  simpa [hm] using congrArg (BitVec.getLsbD · i) h

/-- `w & 0xF` holds `op` (rule R62). -/
theorem op_of_masked {w v : CmdWord} (h : w &&& 0xF = v) : w.extractLsb' 0 4 = v.extractLsb' 0 4 := by
  rw [← h, extractLsb'_masked (by decide)]

/-- Settles O1: the fields of an assembled word are read back, and the decoder inverts the encoder on
fields. -/
theorem decodeOfEncodeIsTheInstruction : Obligations.DecodeOfEncodeIsTheInstruction :=
  Machine.decode_encode

/-- Settles O2: the masked word holds `op`, and for each opcode the decoder has one equation. -/
theorem opcodeSelectsTheCommandAndItsFields : Obligations.OpcodeSelectsTheCommandAndItsFields := fun _ =>
  ⟨fun h => decode_rowenc (op_of_masked h), fun h => decode_rowdec (op_of_masked h),
    fun h => decode_glyenc (op_of_masked h), fun h => decode_glydec (op_of_masked h),
    fun h => decode_ftinit (op_of_masked h), fun h => decode_ftlookup (op_of_masked h),
    fun h => decode_ftsetbit (op_of_masked h), fun h => decode_ftstat (op_of_masked h),
    fun h => decode_ftexport (op_of_masked h), fun h => decode_ftimpbegin (op_of_masked h),
    fun h => decode_ftimpentry (op_of_masked h), fun h => decode_ftimpcommit (op_of_masked h),
    fun h => decode_reservedC (op_of_masked h), fun h => decode_reservedD (op_of_masked h),
    fun h => decode_reservedE (op_of_masked h), fun h => decode_reservedF (op_of_masked h)⟩

/-! ## The bits a command reads (rule R63) -/

namespace Machine

/-- Every command reads its `op`. -/
theorem bitsRead_op (op : BitVec 4) : (bitsRead op).extractLsb' 0 4 = BitVec.allOnes 4 := by
  revert op
  decide

/-- The sixteen values of `op` (rule R62). -/
theorem op_cases (op : BitVec 4) :
    op = 0x0 ∨ op = 0x1 ∨ op = 0x2 ∨ op = 0x3 ∨ op = 0x4 ∨ op = 0x5 ∨ op = 0x6 ∨ op = 0x7 ∨
    op = 0x8 ∨ op = 0x9 ∨ op = 0xA ∨ op = 0xB ∨ op = 0xC ∨ op = 0xD ∨ op = 0xE ∨ op = 0xF := by
  revert op
  decide

/-- Words that agree on the bits their command reads are the same command: each field of its row lies under
the mask. -/
theorem decode_eq_of_bitsRead {w w' : CmdWord}
    (h : w &&& bitsRead (w.extractLsb' 0 4) = w' &&& bitsRead (w.extractLsb' 0 4)) : decode w = decode w' := by
  have hop : w.extractLsb' 0 4 = w'.extractLsb' 0 4 := extractLsb'_eq_of_masked_eq h (bitsRead_op _)
  have field (start len : Nat) (hm : (bitsRead (w.extractLsb' 0 4)).extractLsb' start len = BitVec.allOnes len) :
      w.extractLsb' start len = w'.extractLsb' start len := extractLsb'_eq_of_masked_eq h hm
  rcases op_cases (w.extractLsb' 0 4) with
    ho | ho | ho | ho | ho | ho | ho | ho | ho | ho | ho | ho | ho | ho | ho | ho <;>
    rw [ho] at h field hop
  · rw [decode_rowenc ho, decode_rowenc hop.symm, field 56 8 (by decide)]
  · rw [decode_rowdec ho, decode_rowdec hop.symm, field 16 8 (by decide), field 56 16 (by decide)]
  · rw [decode_glyenc ho, decode_glyenc hop.symm, field 56 64 (by decide)]
  · rw [decode_glydec ho, decode_glydec hop.symm, field 16 8 (by decide), field 56 128 (by decide)]
  · rw [decode_ftinit ho, decode_ftinit hop.symm]
  · rw [decode_ftlookup ho, decode_ftlookup hop.symm, field 32 21 (by decide)]
  · rw [decode_ftsetbit ho, decode_ftsetbit hop.symm, field 32 21 (by decide), field 11 3 (by decide),
      field 8 3 (by decide), getLsbD_eq_of_masked_eq (i := 7) h (by decide)]
  · rw [decode_ftstat ho, decode_ftstat hop.symm]
  · rw [decode_ftexport ho, decode_ftexport hop.symm, field 24 8 (by decide)]
  · rw [decode_ftimpbegin ho, decode_ftimpbegin hop.symm, field 4 3 (by decide)]
  · rw [decode_ftimpentry ho, decode_ftimpentry hop.symm, field 32 21 (by decide), field 4 3 (by decide),
      field 16 8 (by decide), field 56 128 (by decide)]
  · rw [decode_ftimpcommit ho, decode_ftimpcommit hop.symm]
  · rw [decode_reservedC ho, decode_reservedC hop.symm]
  · rw [decode_reservedD ho, decode_reservedD hop.symm]
  · rw [decode_reservedE ho, decode_reservedE hop.symm]
  · rw [decode_reservedF ho, decode_reservedF hop.symm]

/-- Settles O3: a step reads the command word only by decoding it. -/
theorem unreadBitsChangeNothing : Obligations.UnreadBitsChangeNothing := fun _ _ h =>
  have hdecode := decode_eq_of_bitsRead h
  ⟨hdecode, fun _ _ => by rw [step_of_port_command rfl, step_of_port_command rfl, hdecode]⟩

/-! ## Reserved opcodes (rule R64) -/

/-- A word whose `op` is 0xC or more is one of the four reserved instructions. -/
theorem decode_reserved {w : CmdWord} (h : 0xC ≤ (w.extractLsb' 0 4).toNat) :
    decode w ∈ [Instr.reservedC, .reservedD, .reservedE, .reservedF] := by
  obtain ho | ho | ho | ho : w.extractLsb' 0 4 = 0xC ∨ w.extractLsb' 0 4 = 0xD ∨ w.extractLsb' 0 4 = 0xE ∨
      w.extractLsb' 0 4 = 0xF := by bv_omega
  · simp [decode_reservedC ho]
  · simp [decode_reservedD ho]
  · simp [decode_reservedE ho]
  · simp [decode_reservedF ho]

theorem exec_reserved {i : Instr} (hi : i ∈ [Instr.reservedC, .reservedD, .reservedE, .reservedF]) (s : State) :
    exec i s = .next (fail errIllegalCmd s) := by
  simp only [List.mem_cons, List.not_mem_nil, or_false] at hi
  rcases hi with rfl | rfl | rfl | rfl <;> rfl

/-- Settles O58: the four instructions share one meaning, and a word with such an `op` decodes to one of
them. -/
theorem reservedOpcodesAnswerIllegalCmd : Obligations.ReservedOpcodesAnswerIllegalCmd :=
  ⟨fun s _ hi => exec_reserved hi s,
    fun _ _ _ hop hport => (step_of_port_command hport).trans (exec_reserved (decode_reserved hop) _)⟩

/-! ## The words of the test vectors -/

/-- Settles O4: the decoder evaluated on each word. -/
theorem testVectorWordsDecode : Obligations.TestVectorWordsDecode := by
  refine ⟨?_, ?_, ?_, ?_, ?_, ?_, ?_, ?_, ?_⟩ <;> decide

/-! ## The response word (rules R61, R68, R69) -/

/-- The fields below `key` and the reserved bits, read back from the concatenation at their places. -/
theorem rspWord_fields (r : Rsp) :
    rspType (rspWord r) = r.ty ∧ rspFlag (rspWord r) = r.flag ∧ rspExp (rspWord r) = r.exp ∧
    rspLen (rspWord r) = r.len ∧ rspIndex (rspWord r) = r.index ∧ (rspWord r).extractLsb' 53 3 = 0#3 := by
  simp only [rspType, rspFlag, rspExp, rspLen, rspIndex, rspWord_eq_cast, BitVec.extractLsb'_cast,
    BitVec.getLsbD_cast]
  simp (disch := decide) only [extractLsb'_append_high, extractLsb'_append_low, getLsbD_append_high,
    getLsbD_append_low, Nat.reduceSub, BitVec.cast_eq]
  simp

@[simp] theorem rspIndex_rspWord (r : Rsp) : rspIndex (rspWord r) = r.index :=
  have ⟨_, _, _, _, h, _⟩ := rspWord_fields r
  h

/-- Settles O5: each field is read back from the concatenation at its place. -/
theorem responseFieldsStandAtTheirBits : Obligations.ResponseFieldsStandAtTheirBits := fun r =>
  have ⟨hty, hflag, hexp, hlen, hindex, hzero⟩ := rspWord_fields r
  ⟨rspStatus_rspWord r, hty, hflag, hexp, hlen, hindex, rspKey_rspWord r, hzero, rspData_rspWord r⟩

/-- No status has a number from 0x9 to 0xE. -/
theorem statusCode_ne_unused (st : Status) : ¬(0x9 ≤ (statusCode st).toNat ∧ (statusCode st).toNat ≤ 0xE) := by
  cases st <;> decide

/-- The one word a command adds is the word of some response, whose number is that of a status. -/
theorem rspStatus_of_exec {i : Instr} {s t : State} {w : RspWord} (ht : exec i s = .next t)
    (hw : t.rsps = s.rsps ++ [w]) : ∃ st, rspStatus w = statusCode st := by
  obtain ⟨r, u, hr, _, _, hu⟩ := answersOnce_exec i s
  cases hr.symm.trans ht
  obtain rfl : rspWord r = w := by simpa [hu] using hw
  exact ⟨r.status, rspStatus_rspWord r⟩

/-- Settles O6: the numbers by definition, and every response carries the number of a status. -/
theorem statusNumbersAndUnusedOnes : Obligations.StatusNumbersAndUnusedOnes := by
  refine ⟨⟨rfl, rfl, rfl, rfl, rfl, rfl, rfl, rfl, rfl, rfl⟩, fun i s t w ht hw => ?_⟩
  obtain ⟨st, hst⟩ := rspStatus_of_exec ht hw
  exact hst ▸ statusCode_ne_unused st

end Machine

end Sys2Proof

/-! What a host reads from a response: which responses carry data (rule R69), and how a string stands in its
lanes (rule R65). -/

namespace Sys2Proof.Machine

/-! ## Responses that are not OK (rule R69) -/

/-- The command ends with one response, which is OK or carries no data. -/
def AnswersDataOnlyIfOk (s : State) (o : Host.Outcome State Fault Refusal) : Prop :=
  ∃ r u, o = .next (respond r u) ∧ u.rsps = s.rsps ∧ (r.status = .ok ∨ r.data = 0)

theorem rowdecResult_status {len : BitVec 8} {chars : BitVec 16} {r : Rsp} (h : rowdecResult len chars = .ok r) :
    r.status = .ok := by
  unfold rowdecResult at h
  split at h <;> cases h
  rfl

theorem glydecResult_status {len : BitVec 8} {chars : BitVec 128} {r : Rsp} (h : glydecResult len chars = .ok r) :
    r.status = .ok := by
  unfold glydecResult at h
  split at h <;> cases h
  rfl

theorem lookupResult_status {T : Table} {key : Key} {r : Rsp} (h : lookupResult T key = .ok r) :
    r.status = .ok := by
  unfold lookupResult at h
  split at h <;> cases h
  rfl

theorem exportResult_status {T : Table} {index : BitVec 8} {r : Rsp} (h : exportResult T index = .ok r) :
    r.status = .ok := by
  unfold exportResult at h
  split at h <;> cases h
  rfl

/-- A command that only answers, with a result that is OK or with an error. -/
theorem answersDataOnlyIfOk_answer {result : Except ErrRecord Rsp} (hok : ∀ r, result = .ok r → r.status = .ok)
    (s : State) : AnswersDataOnlyIfOk s (.next (answer result s)) := by
  obtain ⟨r, h, hr | ⟨e, _, rfl⟩⟩ := answer_eq_respond result s
  · exact ⟨r, s, congrArg _ h, rfl, .inl (hok r hr)⟩
  · exact ⟨errorRsp e, s, congrArg _ h, rfl, .inr rfl⟩

/-- No command sends data with a status other than OK: an error's response has none, and FTSETBIT and the
commands of an import session send none at all. -/
theorem answersDataOnlyIfOk_exec (i : Instr) (s : State) : AnswersDataOnlyIfOk s (exec i s) := by
  cases i with
  | rowenc row => exact ⟨rowencRsp row, s, rfl, rfl, .inl rfl⟩
  | rowdec len chars => exact answersDataOnlyIfOk_answer (fun _ => rowdecResult_status) s
  | glyenc image => exact ⟨glyencRsp image, s, rfl, rfl, .inl rfl⟩
  | glydec len chars => exact answersDataOnlyIfOk_answer (fun _ => glydecResult_status) s
  | ftinit => exact ⟨_, resetBlock s, rfl, rfl, .inl rfl⟩
  | ftlookup key => exact answersDataOnlyIfOk_answer (fun _ => lookupResult_status) s
  | ftsetbit key row col val =>
    rcases execFtsetbit_cases key row col val s with ⟨_, h⟩ | ⟨_, _, _, h⟩
    all_goals exact ⟨_, _, h, rfl, .inr rfl⟩
  | ftstat => exact ⟨statusView s, s, rfl, rfl, .inl rfl⟩
  | ftexport index => exact answersDataOnlyIfOk_answer (fun _ => exportResult_status) s
  | ftimpbegin ty =>
    rcases execFtimpbegin_cases ty s with ⟨_, h⟩ | ⟨_, h⟩
    all_goals exact ⟨_, _, h, rfl, .inr rfl⟩
  | ftimpentry key ty len chars =>
    rcases execFtimpentry_cases key ty len chars s with ⟨_, h⟩ | ⟨_, _, _, _, h⟩
    all_goals exact ⟨_, _, h, rfl, .inr rfl⟩
  | ftimpcommit =>
    rcases execFtimpcommit_cases s with ⟨_, h⟩ | ⟨_, _, h⟩ | ⟨_, _, _, h⟩
    all_goals exact ⟨_, _, h, rfl, .inr rfl⟩
  | reservedC | reservedD | reservedE | reservedF => exact ⟨_, s, rfl, rfl, .inr rfl⟩

/-- Settles O13: the one word a command adds is that of a response which is OK or has no data. -/
theorem failedResponseCarriesNoData : Obligations.FailedResponseCarriesNoData := by
  intro i s t w ht hw hne
  obtain ⟨r, u, hr, hu, hdata⟩ := answersDataOnlyIfOk_exec i s
  cases hr.symm.trans ht
  obtain rfl : rspWord r = w := by simpa [hu] using hw
  rw [rspStatus_rspWord] at hne
  rw [rspData_rspWord]
  exact hdata.resolve_left fun hok => hne (congrArg statusCode hok)

/-! ## A presented string (rule R65) -/

theorem presentLen_toNat (t : List Char) : (presentLen t).toNat = min t.length 255 := by
  rw [presentLen, BitVec.toNat_ofNat, Nat.mod_eq_of_lt (by omega)]

theorem presentLen_ne_glyphHexLen {t : List Char} (h : t.length ≠ 16) : presentLen t ≠ glyphHexLen := by
  intro heq
  have hlen := congrArg BitVec.toNat heq
  rw [presentLen_toNat, show glyphHexLen.toNat = 16 from rfl] at hlen
  omega

/-- Character `j` of the first sixteen stands in lane `j`. -/
theorem stringChars_presentChars {t : List Char} {j : Fin 16} {c : Char} (h : t[j.val]? = some c) :
    (stringChars (presentChars t))[j] = charCode c := by
  rw [stringChars_getElem, presentChars, lane_packLanes _ _ (by omega)]
  simp [h]

/-- GLYDEC refuses a string of a wrong length whatever its characters (rule R103). -/
theorem exec_glydec_of_wrong_len {len : BitVec 8} (h : len ≠ glyphHexLen) (chars : BitVec 128) (s : State) :
    exec (.glydec len chars) s = .next (fail (errFormatLen glyphHexLen len) s) := by
  have hdecode : decodeGlyph len (stringChars chars) = .error (errFormatLen glyphHexLen len) := if_pos h
  simp only [exec, execGlydec, glydecResult, hdecode, answer_error]

/-- Settles O59: the length saturates below 256, the lanes are those of the packed characters, and GLYDEC
tests the length first. -/
theorem presentedStringStandsInItsLanes : Obligations.PresentedStringStandsInItsLanes := fun t =>
  ⟨presentLen_toNat t, fun _ _ => stringChars_presentChars,
    fun h => exec_glydec_of_wrong_len (presentLen_ne_glyphHexLen h) (presentChars t)⟩

end Sys2Proof.Machine

/-! The pseudo-commands of the host (30_encoding.md section 4, rule R72): IMPORT, EXPORT and BLANK, each a
sequence of commands whose responses the host reads. The responses received on the way are of no concern to
the statements, so a state is given up to its list `rsps`. -/

namespace Sys2Proof.Machine

/-- The state with other responses received. -/
def State.withRsps (s : State) (rs : List RspWord) : State :=
  { s with rsps := rs }

/-- A response only adds to the responses received. -/
@[simp] theorem respond_withRsps (r : Rsp) (s : State) (rs : List RspWord) :
    (respond r s).withRsps rs = s.withRsps rs := rfl

/-! ## One command, and commands up to an error -/

theorem issue_of_respond {i : Instr} {s u : State} {r : Rsp} (h : exec i s = .next (respond r u)) :
    issue i s = .next (respond r u, rspWord r) := by
  simp [issue, h]

theorem issue_of_fail {i : Instr} {s u : State} {e : ErrRecord} (h : exec i s = .next (fail e u)) :
    issue i s = .next (fail e u, rspWord (errorRsp e)) :=
  issue_of_respond h

/-- The last command's response is the result. -/
theorem issueUntilError_nil (i : Instr) (s : State) : issueUntilError i [] s = issue i s := by
  unfold issueUntilError
  cases issue i s <;> rfl

theorem statusCode_eq_ok {st : Status} (h : statusCode st = statusCode .ok) : st = .ok := by
  cases st
  case ok => rfl
  all_goals exact absurd h (by decide)

/-- After a response that is OK the host goes on with the next command. -/
theorem issueUntilError_cons {i : Instr} {s u : State} {r : Rsp} (h : exec i s = .next (respond r u))
    (hr : r.status = .ok) (j : Instr) (is : List Instr) :
    issueUntilError i (j :: is) s = issueUntilError j is (respond r u) := by
  rw [issueUntilError.eq_def]
  simp only [issue_of_respond h, rspStatus_rspWord, hr, if_true]

/-- A response that is not OK ends the sequence and is its result. -/
theorem issueUntilError_of_fail {i : Instr} {s u : State} {e : ErrRecord} (h : exec i s = .next (fail e u))
    (he : e.status ≠ .ok) (is : List Instr) :
    issueUntilError i is s = .next (fail e u, rspWord (errorRsp e)) := by
  cases is with
  | nil => rw [issueUntilError_nil, issue_of_fail h]
  | cons j is =>
    have hcode : statusCode (errorRsp e).status ≠ statusCode .ok := fun hok => he (statusCode_eq_ok hok)
    rw [issueUntilError.eq_def]
    simp only [issue_of_fail h, rspStatus_rspWord, hcode, if_false]

/-! ## EXPORT -/

theorem slotCode_toNat {n : Nat} (h : n ≤ 255) : (slotCode n).toNat = n := by
  rw [slotCode, BitVec.toNat_ofNat, Nat.mod_eq_of_lt (by omega)]

/-- The response of FTEXPORT for an entry: its key and its wire string (rule R128). -/
def exportRsp (index : BitVec 8) (e : Entry) : Rsp :=
  { key := e.key, index := index, len := glyphHexLen, data := stringData (encodeGlyph e.glyph) }

theorem exec_ftexport_getElem {s : State} {index : BitVec 8} {e : Entry} (h : s.ft[index.toNat]? = some e) :
    exec (.ftexport index) s = .next (respond (exportRsp index e) s) := by
  obtain ⟨hlt, rfl⟩ := List.getElem?_eq_some_iff.mp h
  simp only [exec, execFtexport, exportResult, hlt, dite_true, answer_ok]
  rfl

/-- One FTEXPORT of a slot that exists, and the host goes on with the next slot. -/
theorem exportFrom_succ {n i : Nat} {s u : State} {e : Entry} {rows : List (Key × WireString)}
    (he : s.ft[(slotCode i).toNat]? = some e)
    (hrest : exportFrom n (i + 1) (respond (exportRsp (slotCode i) e) s) = .next (u, rows)) :
    exportFrom (n + 1) i s = .next (u, (e.key, encodeGlyph e.glyph) :: rows) := by
  simp only [exportFrom, issue_of_respond (exec_ftexport_getElem he), hrest]
  simp only [rspKey_rspWord, rspData_rspWord, exportRsp, stringChars_stringData]

/-- From slot `i` on, the host collects the rows of the entries from slot `i` on. -/
theorem exportFrom_drop (n i : Nat) (s : State) (hlen : i + n = s.ft.length) (hcap : s.ft.length ≤ 255) :
    ∃ rs, exportFrom n i s = .next (s.withRsps rs, exportTable (s.ft.drop i)) := by
  induction n generalizing i s with
  | zero =>
    have hnil : s.ft.drop i = [] := List.drop_of_length_le (by omega)
    exact ⟨s.rsps, by rw [hnil]; rfl⟩
  | succ n ih =>
    have hi : i < s.ft.length := by omega
    have hentry : s.ft[(slotCode i).toNat]? = some s.ft[i] := by
      rw [slotCode_toNat (by omega), List.getElem?_eq_getElem hi]
    obtain ⟨rs, hrest⟩ := ih (i + 1) (respond (exportRsp (slotCode i) s.ft[i]) s) (by rw [respond_ft]; omega) hcap
    exact ⟨rs, by rw [exportFrom_succ hentry hrest, List.drop_eq_getElem_cons hi]; rfl⟩

/-- Settles O45: FTSTAT gives the number of entries, and FTEXPORT lists them from slot 0 on. -/
theorem pseudoExportListsTheLiveTable : Obligations.PseudoExportListsTheLiveTable := by
  intro s hcap
  have hstat : issue .ftstat s = .next (respond (statusView s) s, rspWord (statusView s)) := issue_of_respond rfl
  have hcount : (rspIndex (rspWord (statusView s))).toNat = s.ft.length := by
    rw [rspIndex_rspWord, statusView, slotCode_toNat hcap]
  obtain ⟨rs, hexport⟩ := exportFrom_drop s.ft.length 0 (respond (statusView s) s) (by simp) hcap
  refine ⟨s.withRsps rs, ?_, rfl⟩
  simp only [pseudoExport, hstat, hcount]
  exact hexport

/-! ## BLANK -/

/-- With distinct keys, FTSETBIT writes the Bit into the glyph of the key's slot (rule R125). -/
theorem exec_ftsetbit_getElem {s : State} (hkeys : (s.ft.map Entry.key).Nodup) {n : Nat} {key : Key} {g : Glyph}
    (h : s.ft[n]? = some { key := key, glyph := g }) (row col : BitVec 3) (val : Bool) :
    exec (.ftsetbit key row col val) s =
      .next (respond { key := key, index := slotCode n }
        (s.withFt (s.ft.set n { key := key, glyph := setBit g row.toFin col.toFin val }))) := by
  obtain ⟨_, hfind, hread⟩ := ftFind_getElem hkeys h
  rw [exec_ftsetbit_of_found hfind]
  simp only [ftWrite, hread]

/-- The Glyph with the Bits at the positions of the list cleared. -/
def clearBits (ps : List (BitVec 3 × BitVec 3)) (g : Glyph) : Glyph :=
  ps.foldl (fun g rc => setBit g rc.1.toFin rc.2.toFin false) g

theorem clearBits_cons (rc : BitVec 3 × BitVec 3) (ps : List (BitVec 3 × BitVec 3)) (g : Glyph) :
    clearBits (rc :: ps) g = clearBits ps (setBit g rc.1.toFin rc.2.toFin false) := rfl

/-- Every Bit of a Glyph after one is set (rule R124). -/
theorem setBit_getElem (g : Glyph) (r c r' c' : Fin 8) (v : Bool) :
    (setBit g r c v)[r'][c'] = if r' = r ∧ c' = c then v else g[r'][c'] := by
  by_cases hr : r' = r
  · subst hr
    simp [setBit, Vector.getElem_set, Fin.ext_iff, eq_comm]
  · have hval : r.val ≠ r'.val := fun h => hr (Fin.ext h.symm)
    simp [setBit, hr, hval]

/-- A Bit that is false stays so, and a Bit whose position is in the list becomes so. -/
theorem clearBits_getElem {ps : List (BitVec 3 × BitVec 3)} {g : Glyph} {r c : BitVec 3}
    (h : (r, c) ∈ ps ∨ g[r.toFin][c.toFin] = false) : (clearBits ps g)[r.toFin][c.toFin] = false := by
  induction ps generalizing g with
  | nil => exact h.resolve_left List.not_mem_nil
  | cons rc ps ih =>
    rw [clearBits_cons]
    apply ih
    rw [setBit_getElem]
    rcases h with h | h
    · rcases List.mem_cons.mp h with rfl | h
      · exact .inr (if_pos ⟨rfl, rfl⟩)
      · exact .inl h
    · exact .inr (by rw [h, ite_self])

/-- Every position is one of the sixty-four. -/
theorem mem_allPixels (r c : BitVec 3) : (r, c) ∈ allPixels := by
  revert r c
  decide

/-- Clearing every Bit leaves the blank glyph. -/
theorem clearBits_allPixels (g : Glyph) : clearBits allPixels g = blankGlyph := by
  refine glyph_ext fun r c => ?_
  have hblank : blankGlyph[r][c] = false := by simp [blankGlyph]
  rw [hblank]
  exact clearBits_getElem (r := .ofFin r) (c := .ofFin c) (.inl (mem_allPixels _ _))

theorem set_keys {T : Table} {n : Nat} {key : Key} {g : Glyph} (h : T[n]? = some { key := key, glyph := g })
    (g' : Glyph) : (T.set n { key := key, glyph := g' }).map Entry.key = T.map Entry.key := by
  obtain ⟨hn, hread⟩ := List.getElem?_eq_some_iff.mp h
  simpa [ftWrite, ftRead, hread] using ftWrite_keys T ⟨n, hn⟩ g'

/-- The FTSETBIT commands of BLANK at the positions of a list clear these Bits of the key's glyph. -/
theorem issueUntilError_clearBits (ps : List (BitVec 3 × BitVec 3)) (rc : BitVec 3 × BitVec 3) {s : State} {n : Nat}
    {key : Key} {g : Glyph} (hkeys : (s.ft.map Entry.key).Nodup) (h : s.ft[n]? = some { key := key, glyph := g }) :
    ∃ rs,
      issueUntilError (.ftsetbit key rc.1 rc.2 false) (ps.map fun rc => .ftsetbit key rc.1 rc.2 false) s =
        .next ((s.withFt (s.ft.set n { key := key, glyph := clearBits (rc :: ps) g })).withRsps rs,
          rspWord { key := key, index := slotCode n }) := by
  induction ps generalizing rc s g with
  | nil =>
    exact ⟨_, (issueUntilError_nil _ _).trans (issue_of_respond (exec_ftsetbit_getElem hkeys h rc.1 rc.2 false))⟩
  | cons rc' ps ih =>
    have hexec := exec_ftsetbit_getElem hkeys h rc.1 rc.2 false
    have hn := (List.getElem?_eq_some_iff.mp h).1
    obtain ⟨rs, hrest⟩ := ih rc' (s := respond { key := key, index := slotCode n }
        (s.withFt (s.ft.set n { key := key, glyph := setBit g rc.1.toFin rc.2.toFin false })))
      (by rwa [respond_ft, withFt_ft, set_keys h])
      (by rw [respond_ft, withFt_ft, List.getElem?_set_self hn])
    refine ⟨rs, ?_⟩
    rw [List.map_cons, issueUntilError_cons hexec rfl, hrest]
    simp only [respond_ft, withFt_ft, List.set_set, clearBits_cons]
    rfl

/-- Settles O46: BLANK sends one FTSETBIT for each of the sixty-four positions, which clear every Bit; with no
such key the first of them fails. -/
theorem pseudoBlankClearsTheGlyph : Obligations.PseudoBlankClearsTheGlyph := by
  intro s hkeys
  refine ⟨fun n e he => ?_, fun k hk => ?_⟩
  · obtain ⟨rs, h⟩ := issueUntilError_clearBits allPixels.tail (0, 0) hkeys he
    have hall : clearBits ((0, 0) :: allPixels.tail) e.glyph = blankGlyph := clearBits_allPixels e.glyph
    rw [hall] at h
    exact ⟨_, _, h, rspStatus_rspWord _, rfl⟩
  · exact issueUntilError_of_fail (exec_ftsetbit_of_absent (ftFind_eq_none hk) 0 0 false) nofun _

/-! ## IMPORT -/

/-- The staging table and the pending error after the members of a list, in order (rule R146). -/
def stageMembers (cap : Nat) (E : List Member) (st : Table) (err : Option ErrRecord) : Table × Option ErrRecord :=
  E.foldl (fun S m => stageMember cap m S.1 S.2) (st, err)

theorem stageMembers_cons (cap : Nat) (m : Member) (E : List Member) (st : Table) (err : Option ErrRecord) :
    stageMembers cap (m :: E) st err =
      stageMembers cap E (stageMember cap m st err).1 (stageMember cap m st err).2 := rfl

/-- What FTIMPCOMMIT makes of a session (rule R147): the pending error, or the staged table. -/
def verdict : Table × Option ErrRecord → Except ErrRecord Table
  | (T, none) => .ok T
  | (_, some e) => .error e

/-- The error of the first member that is no string, wherever it stands, or else `rest` (rule R141). -/
def firstNotString (E : List Member) (rest : Except ErrRecord Table) : Except ErrRecord Table :=
  match E.find? fun m => m.ty != typeString with
  | some m => .error (errNotString m.key m.ty)
  | none => rest

theorem firstNotString_cons_string {m : Member} (h : m.ty = typeString) (E : List Member)
    (rest : Except ErrRecord Table) : firstNotString (m :: E) rest = firstNotString E rest := by
  simp [firstNotString, h]

theorem firstNotString_cons_other {m : Member} (h : m.ty ≠ typeString) (E : List Member)
    (rest : Except ErrRecord Table) : firstNotString (m :: E) rest = .error (errNotString m.key m.ty) := by
  simp [firstNotString, h]

theorem importTable_object (cap : Nat) (E : List Member) :
    importTable cap typeObject E = firstNotString E (importEntries cap E []) := rfl

/-- No error of a string is VALID_NOT_STRING. -/
theorem stageString_error_status {cap : Nat} {m : Member} {T : Table} {e : ErrRecord}
    (h : stageString cap m T = .error e) : e.status ≠ .validNotString := by
  rcases stageString_cases cap m T with ⟨e', hd, hs⟩ | ⟨g, _, hs⟩ <;> rw [hs] at h
  · obtain rfl := Except.error.inj h
    rcases decodeGlyph_error_cases hd with ⟨_, rfl⟩ | ⟨j, rfl⟩ <;> nofun
  · rcases placeGlyph_cases cap T m.key g with ⟨_, _, _, hp⟩ | ⟨_, _, hp⟩ | ⟨_, _, hp⟩ <;> cases hp.symm.trans h
    nofun

theorem verdict_stageMembers_of_notString {e : ErrRecord} (he : e.status = .validNotString) (cap : Nat)
    (E : List Member) (T : Table) : verdict (stageMembers cap E T (some e)) = .error e := by
  induction E with
  | nil => rfl
  | cons m E ih => simpa [stageMembers_cons, stageMember, he] using ih

/-- Any other pending error gives way to the first member that is no string. -/
theorem verdict_stageMembers_of_error {e : ErrRecord} (he : e.status ≠ .validNotString) (cap : Nat)
    (E : List Member) (T : Table) :
    verdict (stageMembers cap E T (some e)) = firstNotString E (.error e) := by
  induction E with
  | nil => rfl
  | cons m E ih =>
    rw [stageMembers_cons]
    by_cases hm : m.ty = typeString
    · rw [firstNotString_cons_string hm, ← ih]
      simp [stageMember, he, hm]
    · rw [firstNotString_cons_other hm, ← verdict_stageMembers_of_notString rfl cap E T]
      simp [stageMember, he, hm]

/-- Staging the members one by one and committing computes steps 2 and 3 of `import_table` (rules R141,
R148). -/
theorem verdict_stageMembers (cap : Nat) (E : List Member) (T : Table) :
    verdict (stageMembers cap E T none) = firstNotString E (importEntries cap E T) := by
  induction E generalizing T with
  | nil => rfl
  | cons m E ih =>
    rw [stageMembers_cons]
    by_cases hm : m.ty = typeString
    · rw [firstNotString_cons_string hm]
      cases hs : stageString cap m T with
      | ok T' =>
        have hm' : stageMember cap m T none = (T', none) := by simp [stageMember, hm, hs]
        rw [hm', ih]
        simp only [importEntries, hs]
      | error e =>
        have hm' : stageMember cap m T none = (T, some e) := by simp [stageMember, hm, hs]
        rw [hm', verdict_stageMembers_of_error (stageString_error_status hs)]
        simp only [importEntries, hs]
    · rw [firstNotString_cons_other hm, ← verdict_stageMembers_of_notString rfl cap E T]
      simp [stageMember, hm]

/-- An FTIMPENTRY in an open session stages its member (rule R146). -/
theorem exec_entryCommand_of_open {s : State} (h : s.impOpen = true) (m : Member) :
    exec (entryCommand m) s =
      .next (respond { flag := true }
        (s.withSession true (stageMember s.params.tableCap m s.st s.impErr).1
          (stageMember s.params.tableCap m s.st s.impErr).2)) :=
  exec_ftimpentry_of_open h Prod.mk.eta.symm

theorem withSession_self {s : State} (h : s.impOpen = true) : s.withSession true s.st s.impErr = s := by
  rw [← h]
  rfl

/-- After a command that leaves a session open, the entries of a payload all answer OK and stage its members,
and the result is that of FTIMPCOMMIT. -/
theorem issueUntilError_entries (E : List Member) {i : Instr} {s t : State} {r : Rsp}
    (h : exec i s = .next (respond r t)) (hr : r.status = .ok) (hopen : t.impOpen = true) :
    ∃ rs,
      issueUntilError i (E.map entryCommand ++ [.ftimpcommit]) s =
        issue .ftimpcommit ((t.withSession true (stageMembers t.params.tableCap E t.st t.impErr).1
          (stageMembers t.params.tableCap E t.st t.impErr).2).withRsps rs) := by
  induction E generalizing i s t r with
  | nil =>
    refine ⟨t.rsps ++ [rspWord r], ?_⟩
    rw [List.map_nil, List.nil_append, issueUntilError_cons h hr, issueUntilError_nil]
    exact congrArg (fun u => issue .ftimpcommit (respond r u)) (withSession_self hopen).symm
  | cons m E ih =>
    obtain ⟨rs, hrest⟩ := ih (exec_entryCommand_of_open (s := respond r t) hopen m) rfl rfl
    exact ⟨rs, (issueUntilError_cons h hr _ _).trans hrest⟩

/-- IMPORT of an OBJECT commits what staging its members one by one leaves. -/
theorem pseudoImport_object (E : List Member) (s : State) :
    ∃ rs,
      pseudoImport typeObject E s =
        issue .ftimpcommit ((s.withSession true (stageMembers s.params.tableCap E [] none).1
          (stageMembers s.params.tableCap E [] none).2).withRsps rs) :=
  issueUntilError_entries E (t := openSession s) rfl rfl rfl

/-- FTIMPCOMMIT of a session whose verdict is a table makes it the live table (rule R147). -/
theorem issue_ftimpcommit_of_ok {s : State} (h : s.impOpen = true) {T : Table}
    (hv : verdict (s.st, s.impErr) = .ok T) :
    issue .ftimpcommit s =
      .next (respond { index := slotCode T.length } (closeSession (s.withFt T)),
        rspWord { index := slotCode T.length }) := by
  cases he : s.impErr with
  | none =>
    obtain rfl : s.st = T := by simpa [verdict, he] using hv
    exact issue_of_respond (exec_ftimpcommit_of_staged h he)
  | some e => simp [verdict, he] at hv

/-- FTIMPCOMMIT of a session whose verdict is an error answers it and keeps the live table (rule R147). -/
theorem issue_ftimpcommit_of_error {s : State} (h : s.impOpen = true) {e : ErrRecord}
    (hv : verdict (s.st, s.impErr) = .error e) :
    issue .ftimpcommit s = .next (fail e (closeSession s), rspWord (errorRsp e)) := by
  cases he : s.impErr with
  | none => simp [verdict, he] at hv
  | some e' =>
    obtain rfl : e' = e := by simpa [verdict, he] using hv
    exact issue_of_fail (exec_ftimpcommit_of_error h he)

/-- IMPORT of a payload that `import_table` accepts replaces the live table. -/
theorem pseudoImport_of_ok {top : TypeCode} {E : List Member} {s : State} {T : Table}
    (h : importTable s.params.tableCap top E = .ok T) :
    ∃ rs, pseudoImport top E s =
      .next ((closeSession (s.withFt T)).withRsps rs, rspWord { index := slotCode T.length }) := by
  by_cases htop : top = typeObject
  · subst htop
    obtain ⟨rs, hcommit⟩ := pseudoImport_object E s
    rw [importTable_object, ← verdict_stageMembers] at h
    exact ⟨_, hcommit.trans (issue_ftimpcommit_of_ok rfl h)⟩
  · simp [importTable, htop] at h

/-- IMPORT of a payload that `import_table` refuses answers its error: of FTIMPBEGIN for a value that is no
object, and of FTIMPCOMMIT for a member. -/
theorem pseudoImport_of_error {top : TypeCode} {E : List Member} {s : State} {e : ErrRecord}
    (h : importTable s.params.tableCap top E = .error e) :
    ∃ rs, pseudoImport top E s = .next ((closeSession s).withRsps rs, rspWord (errorRsp e)) := by
  by_cases htop : top = typeObject
  · subst htop
    obtain ⟨rs, hcommit⟩ := pseudoImport_object E s
    rw [importTable_object, ← verdict_stageMembers] at h
    exact ⟨_, hcommit.trans (issue_ftimpcommit_of_error rfl h)⟩
  · obtain rfl : errNotObject top = e := by simpa [importTable, htop] using h
    have hbegin : exec (.ftimpbegin top) s = .next (fail (errNotObject top) (closeSession s)) :=
      congrArg _ (if_pos htop)
    exact ⟨_, issueUntilError_of_fail hbegin nofun _⟩

/-- Settles O54: staging the members one by one and committing computes `import_table`, by induction over the
members. -/
theorem pseudoImportReplacesTheTableOrNothing : Obligations.PseudoImportReplacesTheTableOrNothing := by
  intro top E s
  cases himport : importTable s.params.tableCap top E with
  | ok T =>
    obtain ⟨rs, h⟩ := pseudoImport_of_ok himport
    refine ⟨_, _, h, ?_, nofun⟩
    rintro _ ⟨⟩
    exact ⟨rfl, rfl⟩
  | error e =>
    obtain ⟨rs, h⟩ := pseudoImport_of_error himport
    refine ⟨_, _, h, nofun, ?_⟩
    rintro _ ⟨⟩
    exact ⟨rfl, rfl⟩

end Sys2Proof.Machine

/-! The row codec (40_row_codec.md): hex digits, rows as pairs of them, and the commands ROWENC and ROWDEC. -/

namespace Sys2Proof.Machine

/-! ## Hex digits -/

/-- Settles O21: no code overflows its eight bits. -/
theorem hexcharIsTheLowercaseDigit : Obligations.HexcharIsTheLowercaseDigit := by
  refine fun n => ⟨fun h => ?_, fun h => ?_⟩
  · rw [hexchar, if_pos h, BitVec.toNat_ofNat]
    omega
  · have := n.isLt
    rw [hexchar, if_neg (by omega), BitVec.toNat_ofNat]
    omega

/-- `hexval` is the partial inverse of `hexchar`. -/
theorem hexval_eq_some_iff (c : CharCode) (v : Nat) : hexval c = some v ↔ v < 16 ∧ hexchar (BitVec.ofNat 4 v) = c := by
  refine ⟨hexchar_of_hexval c v, ?_⟩
  rintro ⟨hv, rfl⟩
  rw [hexval_hexchar, BitVec.toNat_ofNat, Nat.mod_eq_of_lt hv]

/-- Settles O22: the three ranges of codes exclude each other. -/
theorem hexvalKnowsOnlyLowercaseDigits : Obligations.HexvalKnowsOnlyLowercaseDigits := fun c =>
  ⟨fun h => if_pos h, fun h => (if_neg (by omega)).trans (if_pos h),
    fun hdigit hletter => (if_neg hdigit).trans (if_neg hletter), hexval_eq_some_iff c⟩

/-! ## The two digits of a byte -/

theorem ofNat_two_digits (b : BitVec 8) :
    BitVec.ofNat 8 (16 * (b.extractLsb' 4 4).toNat + (b.extractLsb' 0 4).toNat) = b := by
  apply BitVec.eq_of_toNat_eq
  simp only [BitVec.toNat_ofNat, BitVec.extractLsb'_toNat, Nat.shiftRight_eq_div_pow]
  omega

theorem extractLsb'_ofNat_high_digit (h : Nat) {l : Nat} (hl : l < 16) :
    (BitVec.ofNat 8 (16 * h + l)).extractLsb' 4 4 = BitVec.ofNat 4 h := by
  apply BitVec.eq_of_toNat_eq
  simp only [BitVec.toNat_ofNat, BitVec.extractLsb'_toNat, Nat.shiftRight_eq_div_pow]
  omega

theorem extractLsb'_ofNat_low_digit (h l : Nat) :
    (BitVec.ofNat 8 (16 * h + l)).extractLsb' 0 4 = BitVec.ofNat 4 l := by
  apply BitVec.eq_of_toNat_eq
  simp only [BitVec.toNat_ofNat, BitVec.extractLsb'_toNat, Nat.shiftRight_eq_div_pow]
  omega

/-! ## Rows and pairs of digits (rules R85, R87) -/

theorem encodeRow_rowOfByte (b : BitVec 8) :
    encodeRow (rowOfByte b) = #v[hexchar (b.extractLsb' 4 4), hexchar (b.extractLsb' 0 4)] := by
  simp only [encodeRow, rowByte_rowOfByte]

theorem decodeRow_of_len_ne {len : BitVec 8} (h : len ≠ rowHexLen) (c0 c1 : CharCode) :
    decodeRow len c0 c1 = .error (errFormatLen rowHexLen len) :=
  if_pos h

section Digits
variable {c0 c1 : CharCode} {h l : Nat}

theorem decodeRow_of_first_bad (h0 : hexval c0 = none) :
    decodeRow rowHexLen c0 c1 = .error (errFormatDigit rowHexLen 0) := by
  simp [decodeRow, h0]

theorem decodeRow_of_second_bad (h0 : hexval c0 = some h) (h1 : hexval c1 = none) :
    decodeRow rowHexLen c0 c1 = .error (errFormatDigit rowHexLen 1) := by
  simp [decodeRow, h0, h1]

theorem decodeRow_of_digits (h0 : hexval c0 = some h) (h1 : hexval c1 = some l) :
    decodeRow rowHexLen c0 c1 = .ok (rowOfByte (BitVec.ofNat 8 (16 * h + l))) := by
  simp [decodeRow, h0, h1]

theorem encodeRow_of_digits (h0 : hexval c0 = some h) (h1 : hexval c1 = some l) :
    encodeRow (rowOfByte (BitVec.ofNat 8 (16 * h + l))) = #v[c0, c1] := by
  obtain ⟨_, hc0⟩ := hexchar_of_hexval c0 h h0
  obtain ⟨hl, hc1⟩ := hexchar_of_hexval c1 l h1
  simp only [encodeRow_rowOfByte, extractLsb'_ofNat_high_digit h hl, extractLsb'_ofNat_low_digit, hc0, hc1]

end Digits

theorem decodeRow_encodeRow (w : Row) : decodeRow rowHexLen (encodeRow w)[0] (encodeRow w)[1] = .ok w := by
  have hdecode := decodeRow_of_digits (hexval_hexchar ((rowByte w).extractLsb' 4 4))
    (hexval_hexchar ((rowByte w).extractLsb' 0 4))
  rwa [ofNat_two_digits, rowOfByte_rowByte] at hdecode

theorem encodeRow_injective : Function.Injective encodeRow := by
  intro v w h
  have hv := decodeRow_encodeRow v
  rw [h, decodeRow_encodeRow w] at hv
  exact (Except.ok.inj hv).symm

/-- Two hex digits are the form of the Row they decode to. -/
theorem encodeRow_of_hex {c0 c1 : CharCode} (h0 : hexval c0 ≠ none) (h1 : hexval c1 ≠ none) :
    ∃ w, decodeRow rowHexLen c0 c1 = .ok w ∧ encodeRow w = #v[c0, c1] := by
  obtain ⟨h, h0⟩ := Option.ne_none_iff_exists'.mp h0
  obtain ⟨l, h1⟩ := Option.ne_none_iff_exists'.mp h1
  exact ⟨_, decodeRow_of_digits h0 h1, encodeRow_of_digits h0 h1⟩

/-- The form of a Row is two hex digits. -/
theorem hex_of_encodeRow (w : Row) : hexval (encodeRow w)[0] ≠ none ∧ hexval (encodeRow w)[1] ≠ none :=
  ⟨Option.ne_none_iff_exists'.mpr ⟨_, hexval_hexchar _⟩, Option.ne_none_iff_exists'.mpr ⟨_, hexval_hexchar _⟩⟩

/-- The two characters of a row's form, written out. -/
theorem rowString_eta (str : RowString) : #v[str[0], str[1]] = str :=
  Vector.ext fun i hi => by
    obtain rfl | rfl : i = 0 ∨ i = 1 := by omega
    all_goals rfl

/-- Settles O23: the two digits are those of the byte, so each side of the codec undoes the other. -/
theorem rowCodecRoundTrips : Obligations.RowCodecRoundTrips := by
  refine ⟨decodeRow_encodeRow, fun _ _ => encodeRow_of_hex, fun str => ⟨fun ⟨h0, h1⟩ => ?_, ?_⟩⟩
  · obtain ⟨w, _, hw⟩ := encodeRow_of_hex h0 h1
    rw [rowString_eta] at hw
    exact ⟨w, hw, fun v hv => encodeRow_injective (hv.trans hw.symm)⟩
  · rintro ⟨w, rfl, _⟩
    exact hex_of_encodeRow w

/-! ## ROWENC (rule R83) -/

/-- Two characters stand in lanes 0 and 1. -/
theorem stringData_pair (c0 c1 : CharCode) : stringData #v[c0, c1] = (c1 ++ c0).setWidth 128 := by
  have hpack : stringData #v[c0, c1] = packLanes [c0, c1] := rfl
  rw [hpack]
  apply BitVec.eq_of_getLsbD_eq
  intro i hi
  by_cases h : i < 8
  · rw [BitVec.getLsbD_setWidth, getLsbD_append_low _ _ _ h]
    simp [packLanes, hi, h]
  · rw [BitVec.getLsbD_setWidth, getLsbD_append_high _ _ _ (by omega)]
    simp [packLanes, hi, h, BitVec.getLsbD_of_ge c0 i (by omega)]

theorem rowencRsp_eq (b : BitVec 8) :
    rowencRsp b =
      { len := 2, data := (hexchar (b.extractLsb' 0 4) ++ hexchar (b.extractLsb' 4 4)).setWidth 128 } := by
  simp only [rowencRsp, rowHexLen, encodeRow_rowOfByte, stringData_pair]

/-- Settles O24: ROWENC answers with its response, whose data are the two digits in their lanes. -/
theorem rowencAnswersTheTwoDigits : Obligations.RowencAnswersTheTwoDigits := fun b s =>
  congrArg (fun r => Host.Outcome.next (respond r s)) (rowencRsp_eq b)

/-! ## ROWDEC (rule R86) -/

section Rowdec
variable {len : BitVec 8} {chars : BitVec 16}

theorem exec_rowdec_of_error {e : ErrRecord}
    (h : decodeRow len (chars.extractLsb' 0 8) (chars.extractLsb' 8 8) = .error e) (s : State) :
    exec (.rowdec len chars) s = .next (fail e s) := by
  have hresult : rowdecResult len chars = .error e := by simp only [rowdecResult, lane, h]
  simp only [exec, execRowdec, hresult, answer_error]

theorem exec_rowdec_of_ok {w : Row}
    (h : decodeRow len (chars.extractLsb' 0 8) (chars.extractLsb' 8 8) = .ok w) (s : State) :
    exec (.rowdec len chars) s = .next (respond { data := zext128 (rowByte w) } s) := by
  have hresult : rowdecResult len chars = .ok { data := zext128 (rowByte w) } := by
    simp only [rowdecResult, lane, h]
  simp only [exec, execRowdec, hresult, answer_ok]

end Rowdec

theorem zext128_ofNat {n : Nat} (h : n < 256) : zext128 (BitVec.ofNat 8 n) = BitVec.ofNat 128 n := by
  apply BitVec.eq_of_toNat_eq
  simp only [zext128, BitVec.toNat_setWidth, BitVec.toNat_ofNat]
  omega

/-- Settles O25: each clause is one outcome of `decode_row` on lanes 0 and 1. -/
theorem rowdecAnswersTheRowByteOrTheFirstError : Obligations.RowdecAnswersTheRowByteOrTheFirstError := by
  refine fun len chars s => ⟨fun hlen => ?_, ?_, ?_, ?_⟩
  · exact exec_rowdec_of_error (decodeRow_of_len_ne hlen _ _) s
  · rintro rfl h0
    exact exec_rowdec_of_error (decodeRow_of_first_bad h0) s
  · rintro rfl h0 h1
    obtain ⟨h, h0⟩ := Option.ne_none_iff_exists'.mp h0
    exact exec_rowdec_of_error (decodeRow_of_second_bad h0 h1) s
  · rintro h l rfl h0 h1
    have ⟨hh, _⟩ := hexchar_of_hexval _ h h0
    have ⟨hl, _⟩ := hexchar_of_hexval _ l h1
    have hexec := exec_rowdec_of_ok (decodeRow_of_digits h0 h1) s
    rwa [rowByte_rowOfByte, zext128_ofNat (by omega)] at hexec

end Sys2Proof.Machine

/-! The glyph codec (41_glyph_codec.md): a wire string as eight row forms, the bottom row first, and the
commands GLYENC and GLYDEC. -/

namespace Sys2Proof.Machine

/-! ## The characters of a wire string (rule R100) -/

theorem encodeGlyph_getElem (g : Glyph) {j : Nat} (hj : j < 16) :
    (encodeGlyph g)[j] = (encodeRow g[7 - j / 2])[j % 2] := by
  simp [encodeGlyph]

theorem encodeGlyph_chunk (g : Glyph) (k : Fin 8) :
    (encodeGlyph g)[2 * k.val] = (encodeRow g[7 - k.val])[0] ∧
    (encodeGlyph g)[2 * k.val + 1] = (encodeRow g[7 - k.val])[1] := by
  have hdiv : (2 * k.val + 1) / 2 = k.val := by omega
  have hmod : (2 * k.val + 1) % 2 = 1 := by omega
  simp [encodeGlyph_getElem, hdiv, hmod]

/-- Settles O28: character `j` is one of the two of row `7 - j / 2`. -/
theorem encodeGlyphPutsTheBottomRowFirst : Obligations.EncodeGlyphPutsTheBottomRowFirst :=
  encodeGlyph_chunk

/-- A string is the wire string of a Glyph when each of its chunks is the form of its row. -/
theorem encodeGlyph_eq_iff {g : Glyph} {str : WireString} :
    encodeGlyph g = str ↔ ∀ k : Fin 8, encodeRow g[7 - k.val] = #v[str[2 * k.val], str[2 * k.val + 1]] := by
  constructor
  · rintro rfl k
    obtain ⟨h0, h1⟩ := encodeGlyph_chunk g k
    rw [h0, h1, rowString_eta]
  · refine fun h => Vector.ext fun j hj => ?_
    rw [encodeGlyph_getElem, h ⟨j / 2, by omega⟩]
    obtain ⟨k, rfl | rfl⟩ := Nat.even_or_odd' j
    · simp
    · have hdiv : (2 * k + 1) / 2 = k := by omega
      have hmod : (2 * k + 1) % 2 = 1 := by omega
      simp [hdiv, hmod]

/-! ## The decoder undoes the encoder (rules R102, R105) -/

theorem decodeChunk_of_ok {str : WireString} {k : Fin 8} {w : Row}
    (h : decodeRow rowHexLen str[2 * k.val] str[2 * k.val + 1] = .ok w) : decodeChunk str k = .ok w := by
  simp only [decodeChunk, h]

theorem decodeChunk_eq_ok_iff {str : WireString} {k : Fin 8} {w : Row} :
    decodeChunk str k = .ok w ↔ encodeRow w = #v[str[2 * k.val], str[2 * k.val + 1]] := by
  constructor
  · intro hw
    rcases decodeChunk_cases str k with ⟨_, hd⟩ | ⟨_, _, _, hd⟩ | ⟨h, l, h0, h1, hd⟩
    · cases hw.symm.trans hd
    · cases hw.symm.trans hd
    · cases hw.symm.trans hd
      exact encodeRow_of_digits h0 h1
  · intro hw
    have hrow := decodeRow_encodeRow w
    rw [hw] at hrow
    exact decodeChunk_of_ok hrow

/-- The decoder succeeds exactly when every chunk does, and chunk `k` is row `7 - k` (rule R104). -/
theorem decodeGlyph_eq_ok_iff_chunks {str : WireString} {g : Glyph} :
    decodeGlyph glyphHexLen str = .ok g ↔ ∀ k : Fin 8, decodeChunk str k = .ok g[7 - k.val] := by
  rcases decodeGlyph_cases glyphHexLen str with ⟨hl, _⟩ | ⟨k, e, _, _, hk, he⟩ | ⟨g', _, hg', hd⟩
  · exact absurd rfl hl
  · exact ⟨fun h => (by cases h.symm.trans he), fun h => (by cases (h k).symm.trans hk)⟩
  · constructor
    · intro h
      cases h.symm.trans hd
      exact hg'
    · intro h
      rw [hd]
      refine congrArg _ (Vector.ext fun r hr => ?_)
      have hrow := Except.ok.inj ((hg' ⟨7 - r, by omega⟩).symm.trans (h ⟨7 - r, by omega⟩))
      simpa only [show 7 - (7 - r) = r by omega] using hrow

/-- `decode_glyph` is the partial inverse of `encode_glyph`. -/
theorem decodeGlyph_eq_ok_iff {str : WireString} {g : Glyph} :
    decodeGlyph glyphHexLen str = .ok g ↔ encodeGlyph g = str := by
  simp only [decodeGlyph_eq_ok_iff_chunks, decodeChunk_eq_ok_iff, encodeGlyph_eq_iff]

theorem encodeGlyph_injective : Function.Injective encodeGlyph := fun _ _ hgh =>
  Except.ok.inj ((decodeGlyph_eq_ok_iff.mpr hgh).symm.trans (decodeGlyph_eq_ok_iff.mpr rfl))

/-! ## Nibbles of the image (rule R106) -/

theorem encodeRow_getElem (w : Row) {i : Nat} (hi : i < 2) :
    (encodeRow w)[i] = hexchar ((rowByte w).extractLsb' (4 - 4 * i) 4) := by
  obtain rfl | rfl : i = 0 ∨ i = 1 := by omega
  all_goals rfl

/-- A field within a lane is a field of the word. -/
theorem extractLsb'_lane {n : Nat} (d : BitVec n) (r : Nat) {start len : Nat} (h : start + len ≤ 8) :
    (lane d r).extractLsb' start len = d.extractLsb' (8 * r + start) len := by
  apply BitVec.eq_of_getLsbD_eq
  intro i hi
  simp only [BitVec.getLsbD_extractLsb', hi, lane_getLsbD d r (show start + i < 8 by omega), Nat.add_assoc]

/-- The wire string is the image written in hex, the most significant digit first. -/
theorem encodeGlyph_eq_hexchar (g : Glyph) (j : Fin 16) :
    (encodeGlyph g)[j] = hexchar ((glyphImage g).extractLsb' (60 - 4 * j.val) 4) := by
  have hstart : 60 - 4 * j.val = 8 * (7 - j.val / 2) + (4 - 4 * (j.val % 2)) := by omega
  have hrow : lane (glyphImage g) (7 - j.val / 2) = rowByte g[7 - j.val / 2] :=
    lane_glyphImage g ⟨7 - j.val / 2, by omega⟩
  calc (encodeGlyph g)[j]
      = (encodeRow g[7 - j.val / 2])[j.val % 2] := encodeGlyph_getElem g j.isLt
    _ = hexchar ((rowByte g[7 - j.val / 2]).extractLsb' (4 - 4 * (j.val % 2)) 4) :=
      encodeRow_getElem _ (Nat.mod_lt _ (by decide))
    _ = hexchar ((glyphImage g).extractLsb' (60 - 4 * j.val) 4) := by
      rw [← hrow, extractLsb'_lane _ _ (by omega), hstart]

theorem hexval_encodeGlyph (g : Glyph) (j : Fin 16) :
    hexval (encodeGlyph g)[j] = some ((glyphImage g).extractLsb' (60 - 4 * j.val) 4).toNat := by
  rw [encodeGlyph_eq_hexchar, hexval_hexchar]

theorem hex_of_encodeGlyph (g : Glyph) (j : Fin 16) : hexval (encodeGlyph g)[j] ≠ none :=
  Option.ne_none_iff_exists'.mpr ⟨_, hexval_encodeGlyph g j⟩

/-- Settles O32: the digits are the nibbles, and what decodes to a Glyph is its wire string. -/
theorem wireStringSpellsTheImageInHex : Obligations.WireStringSpellsTheImageInHex := by
  refine ⟨encodeGlyph_eq_hexchar, fun str g h => ?_⟩
  obtain rfl := decodeGlyph_eq_ok_iff.mp h
  exact hexval_encodeGlyph g

/-! ## The characters in string order (rules R102, R105) -/

/-- A chunk that decodes is two hex digits. -/
theorem hex_of_decodeChunk {str : WireString} {j : Fin 16} {w : Row}
    (h : decodeChunk str ⟨j.val / 2, by omega⟩ = .ok w) : hexval str[j] ≠ none := by
  have hrow := decodeChunk_eq_ok_iff.mp h
  obtain ⟨h0, h1⟩ := hex_of_encodeRow w
  simp only [hrow] at h0 h1
  obtain ⟨j, hj⟩ := j
  obtain ⟨k, rfl | rfl⟩ := Nat.even_or_odd' j
  · simpa using h0
  · simpa [show (2 * k + 1) / 2 = k by omega] using h1

/-- All that `decode_glyph` can do with sixteen characters: the error of the first that is no hex digit, or
the Glyph they are the wire string of. -/
theorem decodeGlyph_digit_cases (str : WireString) :
    (∃ j : Fin 16, hexval str[j] = none ∧ (∀ i < j, hexval str[i] ≠ none) ∧
      decodeGlyph glyphHexLen str = .error (errFormatDigit glyphHexLen (BitVec.ofNat 8 j))) ∨
    ∃ g, encodeGlyph g = str ∧ decodeGlyph glyphHexLen str = .ok g := by
  rcases decodeGlyph_cases glyphHexLen str with ⟨hl, _⟩ | ⟨k, e, _, hbefore, hk, he⟩ | ⟨g, _, _, hg⟩
  · exact absurd rfl hl
  · have hgood : ∀ i : Fin 16, i.val < 2 * k.val → hexval str[i] ≠ none := fun i hi =>
      have ⟨_, hw⟩ := hbefore ⟨i.val / 2, by omega⟩ (Fin.lt_def.mpr (Nat.div_lt_of_lt_mul hi))
      hex_of_decodeChunk hw
    rcases decodeChunk_cases str k with ⟨h0, hd⟩ | ⟨_, h0, h1, hd⟩ | ⟨_, _, _, _, hd⟩
    · cases hk.symm.trans hd
      exact .inl ⟨⟨2 * k.val, by omega⟩, h0, hgood, he⟩
    · cases hk.symm.trans hd
      refine .inl ⟨⟨2 * k.val + 1, by omega⟩, h1, fun i hi => ?_, he⟩
      obtain hi | hi := Nat.lt_succ_iff_lt_or_eq.mp (Fin.lt_def.mp hi)
      · exact hgood i hi
      · simp [hi, h0]
    · cases hk.symm.trans hd
  · exact .inr ⟨g, decodeGlyph_eq_ok_iff.mp hg, hg⟩

/-- Sixteen hex digits are the wire string of the Glyph they decode to. -/
theorem decodeGlyph_of_hex {str : WireString} (h : ∀ j : Fin 16, hexval str[j] ≠ none) :
    ∃ g, decodeGlyph glyphHexLen str = .ok g ∧ encodeGlyph g = str := by
  rcases decodeGlyph_digit_cases str with ⟨j, hj, _⟩ | ⟨g, hg, hd⟩
  · exact absurd hj (h j)
  · exact ⟨g, hd, hg⟩

/-- The error of sixteen characters is that of the first that is no hex digit. -/
theorem decodeGlyph_of_first_bad {str : WireString} {j : Fin 16} (hj : hexval str[j] = none)
    (hbefore : ∀ i < j, hexval str[i] ≠ none) :
    decodeGlyph glyphHexLen str = .error (errFormatDigit glyphHexLen (BitVec.ofNat 8 j)) := by
  rcases decodeGlyph_digit_cases str with ⟨i, hi, hmin, hd⟩ | ⟨g, rfl, _⟩
  · rcases lt_trichotomy i j with hlt | rfl | hlt
    · exact absurd hi (hbefore i hlt)
    · exact hd
    · exact absurd hj (hmin j hlt)
  · exact absurd hj (hex_of_encodeGlyph g j)

/-- Settles O31: the decoder is the partial inverse of the encoder, and it is defined on the hex digits. -/
theorem glyphCodecRoundTrips : Obligations.GlyphCodecRoundTrips := by
  refine ⟨fun _ => decodeGlyph_of_hex, fun g => decodeGlyph_eq_ok_iff.mpr rfl, fun str => ⟨fun h => ?_, ?_⟩⟩
  · obtain ⟨g, _, hg⟩ := decodeGlyph_of_hex h
    exact ⟨g, hg, fun g' hg' => encodeGlyph_injective (hg'.trans hg.symm)⟩
  · rintro ⟨g, rfl, _⟩
    exact hex_of_encodeGlyph g

/-! ## The length and the chunks (rules R102, R107) -/

theorem decodeGlyph_of_len_ne {len : BitVec 8} (h : len ≠ glyphHexLen) (str : WireString) :
    decodeGlyph len str = .error (errFormatLen glyphHexLen len) :=
  if_pos h

/-- An error of `decode_row` on a chunk, with the lengths and the index of the whole string. -/
theorem decodeChunk_of_error {str : WireString} {k : Fin 8} {e : ErrRecord}
    (h : decodeRow rowHexLen str[2 * k.val] str[2 * k.val + 1] = .error e) :
    decodeChunk str k = .error (errFormatDigit glyphHexLen (BitVec.ofNat 8 (2 * k.val + e.index.toNat))) := by
  rcases decodeRow_cases rowHexLen str[2 * k.val] str[2 * k.val + 1] with
    ⟨hl, _⟩ | ⟨_, _, hd⟩ | ⟨_, _, _, _, hd⟩ | ⟨_, _, _, _, _, hd⟩
  · exact absurd rfl hl
  · cases h.symm.trans hd
    simp [decodeChunk, hd, errFormatDigit]
  · cases h.symm.trans hd
    simp [decodeChunk, hd, errFormatDigit, BitVec.ofNat_add]
  · cases h.symm.trans hd

/-- The first chunk that fails ends the decoding. -/
theorem decodeGlyph_of_first_bad_chunk {str : WireString} {k : Fin 8} {e : ErrRecord}
    (hbefore : ∀ j < k, ∃ w, decodeChunk str j = .ok w) (hk : decodeChunk str k = .error e) :
    decodeGlyph glyphHexLen str = .error e := by
  rcases decodeGlyph_cases glyphHexLen str with ⟨hl, _⟩ | ⟨i, e', _, hmin, hi, he⟩ | ⟨g, _, hg, _⟩
  · exact absurd rfl hl
  · rcases lt_trichotomy i k with hlt | rfl | hlt
    · obtain ⟨w, hw⟩ := hbefore i hlt
      cases hw.symm.trans hi
    · cases hk.symm.trans hi
      exact he
    · obtain ⟨w, hw⟩ := hmin k hlt
      cases hw.symm.trans hk
  · cases (hg k).symm.trans hk

/-- Settles O29: a chunk decodes as its row does, and the first failing chunk decides. -/
theorem decodeGlyphTakesChunksInStringOrder : Obligations.DecodeGlyphTakesChunksInStringOrder := by
  refine fun len str => ⟨fun h => decodeGlyph_of_len_ne h str, ?_, ?_⟩
  · rintro k e rfl hbefore hk
    refine decodeGlyph_of_first_bad_chunk (fun j hj => ?_) (decodeChunk_of_error hk)
    obtain ⟨w, hw⟩ := hbefore j hj
    exact ⟨w, decodeChunk_of_ok hw⟩
  · rintro g rfl hrows
    exact decodeGlyph_eq_ok_iff_chunks.mpr fun k => decodeChunk_of_ok (hrows k)

/-- Settles O30: the length error comes with a wrong length only, the digit error with one of the sixteen
characters. -/
theorem rowLevelLengthErrorNeverLeavesTheGlyphDecoder :
    Obligations.RowLevelLengthErrorNeverLeavesTheGlyphDecoder := by
  intro len str e he
  rcases decodeGlyph_error_cases he with ⟨hlen, rfl⟩ | ⟨j, rfl⟩
  · exact ⟨rfl, rfl, rfl, .inl ⟨rfl, rfl, hlen, rfl⟩⟩
  · have hlen : len = glyphHexLen := by
      by_contra hne
      cases he.symm.trans (decodeGlyph_of_len_ne hne str)
    have hj : j.val % 2 ^ 8 = j.val := Nat.mod_eq_of_lt (by omega)
    refine ⟨rfl, rfl, rfl, .inr ⟨rfl, rfl, hlen, ?_⟩⟩
    simp only [errFormatDigit, BitVec.toNat_ofNat, hj, j.isLt]

/-! ## GLYENC (rule R101) -/

/-- Settles O33: GLYENC answers the wire string of the Glyph whose image its operand is. -/
theorem glyencAnswersTheWireString : Obligations.GlyencAnswersTheWireString := by
  refine fun G s => ⟨stringData (encodeGlyph (glyphOfImage G)), rfl, fun j => ?_⟩
  calc lane (stringData (encodeGlyph (glyphOfImage G))) j
      = (encodeGlyph (glyphOfImage G))[j] := lane_stringData _ j (Nat.le_refl 16)
    _ = hexchar (G.extractLsb' (60 - 4 * j.val) 4) := by rw [encodeGlyph_eq_hexchar, glyphImage_glyphOfImage]

/-! ## GLYDEC (rule R103) -/

section Glydec
variable {len : BitVec 8} {chars : BitVec 128}

theorem exec_glydec_of_error {e : ErrRecord} (h : decodeGlyph len (stringChars chars) = .error e) (s : State) :
    exec (.glydec len chars) s = .next (fail e s) := by
  simp only [exec, execGlydec, glydecResult, h, answer_error]

theorem exec_glydec_of_ok {g : Glyph} (h : decodeGlyph len (stringChars chars) = .ok g) (s : State) :
    exec (.glydec len chars) s = .next (respond { data := zext128 (glyphImage g) } s) := by
  simp only [exec, execGlydec, glydecResult, h, answer_ok]

end Glydec

/-- A lane of the operand is a character of the string it presents. -/
theorem hexval_stringChars (chars : BitVec 128) (j : Fin 16) :
    hexval (stringChars chars)[j] = hexval (chars.extractLsb' (8 * j) 8) :=
  congrArg hexval (stringChars_getElem chars j)

/-- Settles O34: each clause is one outcome of `decode_glyph` on the sixteen lanes. -/
theorem glydecAnswersTheImageOrTheFirstError : Obligations.GlydecAnswersTheImageOrTheFirstError := by
  intro len chars s
  simp only [← hexval_stringChars]
  refine ⟨fun hlen => exec_glydec_of_wrong_len hlen chars s, ?_, ?_⟩
  · rintro j rfl hj hbefore
    exact exec_glydec_of_error (decodeGlyph_of_first_bad hj hbefore) s
  · rintro rfl hhex
    obtain ⟨g, hd, hg⟩ := decodeGlyph_of_hex hhex
    refine ⟨glyphImage g, exec_glydec_of_ok hd s, fun j => ?_⟩
    rw [← hg, hexval_encodeGlyph]

end Sys2Proof.Machine

/-! The font table (42_font_table.md): what each of its commands answers and writes, the export of a table,
and the commands that keep the keys. -/

namespace Sys2Proof.Machine

/-! ## The default table and FTINIT (rules R120, R121) -/

theorem mem_defaultTable_iff {ks : List Key} {e : Entry} :
    e ∈ defaultTable ks ↔ e.key ∈ ks ∧ e.glyph = blankGlyph := by
  constructor
  · intro he
    obtain ⟨k, hk, rfl⟩ := List.mem_map.mp he
    exact ⟨hk, rfl⟩
  · rintro ⟨hk, hg⟩
    exact List.mem_map.mpr ⟨e.key, hk, by rw [← hg]⟩

/-- Rule R26 names these keys among the 66. -/
theorem named_keys_subset_known66 : ([0x41, 0x61, 0x30, 0x2B, 0x2D, 0x5F, 0x3F] : List Key) ⊆ Config.known66 := by
  decide +kernel

/-- Settles O36: the default table lists the alphabet, which rule R4 has distinct and with the named keys. -/
theorem defaultTableIsTheBlankAlphabet : Obligations.DefaultTableIsTheBlankAlphabet := by
  rintro p ⟨⟨hnodup, hknown, _⟩, _⟩
  refine ⟨defaultTable_keys _, fun e he => (mem_defaultTable_iff.mp he).2, defaultTable_length _, ?_,
    fun k hk => mem_defaultTable_iff.mpr ⟨hknown k hk, rfl⟩, named_keys_subset_known66⟩
  rwa [defaultTable_keys]

theorem exec_ftinit (s : State) :
    exec .ftinit s = .next (respond { index := slotCode s.params.alphabet.length } (resetBlock s)) := rfl

/-- Settles O37: FTINIT is the update of a reset with one response. -/
theorem ftinitRefillsTheTable : Obligations.FtinitRefillsTheTable := exec_ftinit

/-- What a reset leaves depends on the parameters, the port and the responses only. -/
theorem resetBlock_respond_resetBlock (r : Rsp) (s : State) :
    resetBlock (respond r (resetBlock s)) = respond r (resetBlock s) := rfl

/-- With the reset parameters, a reset leaves the reset state, the two ends of the port aside (rule R180). -/
theorem resetBlock_eq_reset {s : State} (h : s.params = Config.resetParams) :
    { resetBlock s with port := [], rsps := [] } = State.reset := by
  rw [State.reset, ← h]
  rfl

/-- Settles O19: after FTINIT the block is as after a reset, so a second one only answers. -/
theorem ftinitLeavesTheResetState : Obligations.FtinitLeavesTheResetState := by
  intro s t ht
  cases (exec_ftinit s).symm.trans ht
  refine ⟨resetBlock_eq_reset, _, exec_ftinit _, ?_⟩
  rw [resetBlock_respond_resetBlock]
  rfl

/-! ## FTSTAT (rule R126) -/

/-- Settles O42: FTSTAT answers the status view. -/
theorem ftstatAnswersTheStatusView : Obligations.FtstatAnswersTheStatusView := fun _ => rfl

/-! ## FTLOOKUP (rule R123) -/

theorem exec_ftlookup_of_absent {key : Key} {s : State} (h : ftFind s.ft key = none) :
    exec (.ftlookup key) s = .next (fail (errKeyNotFound key) s) := by
  simp only [exec, execFtlookup, lookupResult, h, answer_error]

/-- Settles O38: with distinct keys the search finds the slot of the entry; an absent key is not found. -/
theorem ftlookupAnswersTheEntry : Obligations.FtlookupAnswersTheEntry := by
  refine fun s hkeys => ⟨fun n e he => ?_, fun k hk => exec_ftlookup_of_absent (ftFind_eq_none hk)⟩
  obtain ⟨_, hfind, hread⟩ := ftFind_getElem hkeys he
  rw [exec_ftlookup_of_found hfind, hread]
  rfl

/-! ## FTSETBIT (rules R124, R125) -/

/-- Every image bit is the place of a Bit (rule R23). -/
theorem exists_row_col_of_image_bit (n : Fin 64) : ∃ r c : Fin 8, n.val = 8 * r.val + 7 - c.val :=
  ⟨⟨n / 8, by omega⟩, ⟨7 - n % 8, by omega⟩, by simp only; omega⟩

/-- Two Bits with one place in the image are the same Bit (rule R23). -/
theorem image_bit_eq_iff (r c r' c' : Fin 8) :
    8 * r'.val + 7 - c'.val = 8 * r.val + 7 - c.val ↔ r' = r ∧ c' = c := by
  rw [Fin.ext_iff, Fin.ext_iff]
  omega

theorem glyphImage_setBit_getLsbD (g : Glyph) (r c : Fin 8) (v : Bool) (n : Fin 64) :
    (glyphImage (setBit g r c v)).getLsbD n =
      if n.val = 8 * r.val + 7 - c.val then v else (glyphImage g).getLsbD n := by
  obtain ⟨r', c', hn⟩ := exists_row_col_of_image_bit n
  simp only [hn, glyphImage_getLsbD, setBit_getElem, image_bit_eq_iff]

/-- Settles O39: each image bit is one Bit of the Glyph, and `set_bit` sets one Bit. -/
theorem setBitChangesOneImageBit : Obligations.SetBitChangesOneImageBit := fun g r c v =>
  ⟨fun r' c' => setBit_getElem g r c r' c' v, glyphImage_setBit_getLsbD g r c v⟩

/-- Settles O40: the glyph of the key's slot after `set_bit` is put in its place; an absent key is not found. -/
theorem ftsetbitStoresTheOneBit : Obligations.FtsetbitStoresTheOneBit := by
  refine fun s row col val hkeys => ⟨fun n e he => ?_, fun k hk => ?_⟩
  · refine ⟨setBit e.glyph row.toFin col.toFin val, exec_ftsetbit_getElem hkeys he row col val, fun r c => ?_⟩
    simp only [setBit_getElem, Fin.ext_iff]
    rfl
  · exact exec_ftsetbit_of_absent (ftFind_eq_none hk) row col val

/-! ## Exporting (rules R127, R128) -/

theorem exec_ftexport_of_length_le {s : State} {index : BitVec 8} (h : s.ft.length ≤ index.toNat) :
    exec (.ftexport index) s = .next (fail (errIndexRange index) s) := by
  simp only [exec, execFtexport, exportResult, Nat.not_lt.mpr h, dite_false, answer_error]

/-- Settles O43: the data are the wire string in its lanes; past the last slot the index is out of range. -/
theorem ftexportAnswersTheSlot : Obligations.FtexportAnswersTheSlot := fun _ _ =>
  ⟨fun e he => ⟨stringData (encodeGlyph e.glyph), exec_ftexport_getElem he,
      fun j => lane_stringData (encodeGlyph e.glyph) j (Nat.le_refl 16)⟩,
    exec_ftexport_of_length_le⟩

theorem exportTable_getElem? {T : Table} {n : Nat} {e : Entry} (h : T[n]? = some e) :
    (exportTable T)[n]? = some (e.key, encodeGlyph e.glyph) := by
  rw [exportTable, List.getElem?_map, h, Option.map_some]

/-- Settles O44: the export lists each entry by its wire string, whose characters are hex digits. -/
theorem exportTableListsEveryEntry : Obligations.ExportTableListsEveryEntry := by
  refine fun T => ⟨List.length_map _, fun n e he => exportTable_getElem? he, fun row hrow => ?_⟩
  obtain ⟨e, _, rfl⟩ := List.mem_map.mp hrow
  exact hex_of_encodeGlyph e.glyph

/-! ## The keys of the live table (rule R130) -/

/-- Settles O47, by what each command writes: a command that only answers, FTIMPBEGIN and FTIMPENTRY leave the
table, and FTSETBIT leaves its keys. -/
theorem onlyReplacementChangesTheKeys : Obligations.OnlyReplacementChangesTheKeys := by
  intro i s t ht
  cases commandKind i with
  | onlyAnswers word hword =>
    cases (hword s).symm.trans ht
    exact .inl rfl
  | ftinit =>
    cases (exec_ftinit s).symm.trans ht
    exact .inr (.inl ⟨rfl, defaultTable_keys _⟩)
  | ftsetbit key row col val =>
    rcases execFtsetbit_cases key row col val s with ⟨_, he⟩ | ⟨j, _, _, he⟩ <;> cases he.symm.trans ht
    · exact .inl rfl
    · exact .inl (ftWrite_keys s.ft j _)
  | ftimpbegin ty =>
    rcases execFtimpbegin_cases ty s with ⟨_, he⟩ | ⟨_, he⟩ <;> cases he.symm.trans ht
    all_goals exact .inl rfl
  | ftimpentry key ty len chars =>
    rcases execFtimpentry_cases key ty len chars s with ⟨_, he⟩ | ⟨_, _, _, _, he⟩ <;> cases he.symm.trans ht
    all_goals exact .inl rfl
  | ftimpcommit =>
    rcases execFtimpcommit_cases s with ⟨_, he⟩ | ⟨hopen, herr, he⟩ | ⟨_, _, _, he⟩ <;> cases he.symm.trans ht
    · exact .inl rfl
    · exact .inr (.inr ⟨rfl, hopen, herr, rfl⟩)
    · exact .inl rfl

end Sys2Proof.Machine

/-! The import session (43_font_table_import.md): the commands FTIMPBEGIN, FTIMPENTRY and FTIMPCOMMIT, the
function `import_table`, and that a session computes it. -/

namespace Sys2Proof.Machine

/-! ## FTIMPBEGIN and FTIMPCOMMIT (rules R145, R147) -/

theorem exec_ftimpbegin_of_object (s : State) :
    exec (.ftimpbegin typeObject) s = .next (respond { flag := true } (openSession s)) := rfl

theorem exec_ftimpbegin_of_other {ty : TypeCode} (h : ty ≠ typeObject) (s : State) :
    exec (.ftimpbegin ty) s = .next (fail (errNotObject ty) (closeSession s)) :=
  congrArg _ (if_pos h)

/-- Settles O48: an OBJECT opens an empty session, and any other type closes it. -/
theorem ftimpbeginOpensOrRejects : Obligations.FtimpbeginOpensOrRejects := by
  refine fun ty s => ⟨?_, fun h => exec_ftimpbegin_of_other h s⟩
  rintro rfl
  exact exec_ftimpbegin_of_object s

/-- Settles O50: the three cases of FTIMPCOMMIT. -/
theorem ftimpcommitGivesTheVerdict : Obligations.FtimpcommitGivesTheVerdict := fun _ =>
  ⟨exec_ftimpcommit_of_closed, exec_ftimpcommit_of_staged, fun _ => exec_ftimpcommit_of_error⟩

/-! ## Placing and staging a glyph, an equation per case (rules R141, R146) -/

/-- With distinct keys, a glyph for the key of slot `n` replaces the glyph there. -/
theorem placeGlyph_of_getElem? {T : Table} (hkeys : (T.map Entry.key).Nodup) {n : Nat} {key : Key} {old : Glyph}
    (h : T[n]? = some { key := key, glyph := old }) (cap : Nat) (g : Glyph) :
    placeGlyph cap T key g = .ok (T.set n { key := key, glyph := g }) := by
  obtain ⟨_, hfind, hread⟩ := ftFind_getElem hkeys h
  simp only [placeGlyph, hfind, ftWrite, hread]

theorem placeGlyph_of_full {T : Table} {key : Key} (h : key ∉ T.map Entry.key) {cap : Nat} (hcap : T.length = cap)
    (g : Glyph) : placeGlyph cap T key g = .error (errTableFull key) := by
  simp only [placeGlyph, ftFind_eq_none h, hcap, if_true]

theorem placeGlyph_of_new {T : Table} {key : Key} (h : key ∉ T.map Entry.key) {cap : Nat} (hcap : T.length ≠ cap)
    (g : Glyph) : placeGlyph cap T key g = .ok (ftAppend T key g) := by
  simp only [placeGlyph, ftFind_eq_none h, hcap, if_false]

section StageString
variable {m : Member}

theorem stageString_of_decoded {g : Glyph} (h : decodeGlyph m.len (stringChars m.chars) = .ok g) (cap : Nat)
    (T : Table) : stageString cap m T = placeGlyph cap T m.key g := by
  simp only [stageString, h]

/-- No error of `decode_glyph` has a type, so the member's error has none. -/
theorem stageString_of_undecodable {e : ErrRecord} (h : decodeGlyph m.len (stringChars m.chars) = .error e)
    (cap : Nat) (T : Table) :
    stageString cap m T =
      .error { status := e.status, exp := e.exp, len := e.len, index := e.index, key := m.key } := by
  have hty : e.ty = 0 := by
    rcases decodeGlyph_error_cases h with ⟨_, rfl⟩ | ⟨_, rfl⟩ <;> rfl
  simp only [stageString, h, hty]

end StageString

section StageMember
variable {m : Member} (cap : Nat) (T : Table)

theorem stageMember_of_notString_recorded {e : ErrRecord} (he : e.status = .validNotString) :
    stageMember cap m T (some e) = (T, some e) :=
  if_pos he

theorem stageMember_of_not_string (h : m.ty ≠ typeString) {err : Option ErrRecord}
    (herr : ∀ e, err = some e → e.status ≠ .validNotString) :
    stageMember cap m T err = (T, some (errNotString m.key m.ty)) := by
  cases err with
  | none => exact if_pos h
  | some e => exact (if_neg (herr e rfl)).trans (if_pos h)

theorem stageMember_of_recorded (h : m.ty = typeString) (e : ErrRecord) :
    stageMember cap m T (some e) = (T, some e) := by
  simp [stageMember, h]

variable {cap T}

theorem stageMember_of_stageString_error (h : m.ty = typeString) {e : ErrRecord}
    (hs : stageString cap m T = .error e) : stageMember cap m T none = (T, some e) := by
  simp [stageMember, h, hs]

theorem stageMember_of_stageString_ok (h : m.ty = typeString) {T' : Table}
    (hs : stageString cap m T = .ok T') : stageMember cap m T none = (T', none) := by
  simp [stageMember, h, hs]

end StageMember

/-! ## FTIMPENTRY (rule R146) -/

/-- In an open session FTIMPENTRY writes what staging its member leaves, and answers OK. -/
theorem exec_ftimpentry_stages {s : State} {key : Key} {ty : TypeCode} {len : BitVec 8} {chars : BitVec 128}
    (hopen : s.impOpen = true) {T : Table} {err : Option ErrRecord}
    (hm : stageMember s.params.tableCap ⟨key, ty, len, chars⟩ s.st s.impErr = (T, err)) :
    exec (.ftimpentry key ty len chars) s =
      .next { s with st := T, impErr := err, rsps := s.rsps ++ [rspWord { flag := true }] } := by
  rw [exec_ftimpentry_of_open hopen hm, ← hopen]
  rfl

/-- Settles O49: each clause inside a session is one case of staging the member. -/
theorem ftimpentryStagesOneMember : Obligations.FtimpentryStagesOneMember := by
  intro key ty len chars s
  refine ⟨fun hclosed => exec_ftimpentry_of_closed hclosed key ty len chars, ?_, ?_, ?_, ?_, ?_, ?_, ?_⟩
  · intro e hopen herr hstatus
    exact exec_ftimpentry_stages hopen (herr ▸ stageMember_of_notString_recorded _ _ hstatus)
  · intro hopen hty herr
    exact exec_ftimpentry_stages hopen (stageMember_of_not_string _ _ hty herr)
  · intro e hopen hty herr
    exact exec_ftimpentry_stages hopen (herr ▸ stageMember_of_recorded _ _ hty e)
  · intro e hopen hty herr hdecode
    have hs := stageString_of_undecodable (m := ⟨key, ty, len, chars⟩) hdecode s.params.tableCap s.st
    exact exec_ftimpentry_stages hopen (herr ▸ stageMember_of_stageString_error hty hs)
  · intro g n old hopen hty herr hdecode hkeys hn
    have hs := (stageString_of_decoded (m := ⟨key, ty, len, chars⟩) hdecode s.params.tableCap s.st).trans
      (placeGlyph_of_getElem? hkeys hn _ g)
    exact exec_ftimpentry_stages hopen (herr ▸ stageMember_of_stageString_ok hty hs)
  · intro g hopen hty herr hdecode hkey hfull
    have hs := (stageString_of_decoded (m := ⟨key, ty, len, chars⟩) hdecode _ s.st).trans
      (placeGlyph_of_full hkey hfull g)
    exact exec_ftimpentry_stages hopen (herr ▸ stageMember_of_stageString_error hty hs)
  · intro g hopen hty herr hdecode hkey hroom
    have hs := (stageString_of_decoded (m := ⟨key, ty, len, chars⟩) hdecode _ s.st).trans
      (placeGlyph_of_new hkey hroom g)
    exact exec_ftimpentry_stages hopen (herr ▸ stageMember_of_stageString_ok hty hs)

/-! ## The order of validation (rule R141) -/

theorem importTable_of_top {top : TypeCode} (h : top ≠ typeObject) (cap : Nat) (E : List Member) :
    importTable cap top E = .error (errNotObject top) :=
  if_pos h

theorem firstNotString_of_strings {E : List Member} (h : ∀ x ∈ E, x.ty = typeString)
    (rest : Except ErrRecord Table) : firstNotString E rest = rest := by
  have hfind : (E.find? fun m => m.ty != typeString) = none := List.find?_eq_none.mpr (by simpa using h)
  simp only [firstNotString, hfind]

/-- A member that is no string, after strings only, decides. -/
theorem firstNotString_append_cons {E₁ : List Member} (h : ∀ x ∈ E₁, x.ty = typeString) {m : Member}
    (hm : m.ty ≠ typeString) (E₂ : List Member) (rest : Except ErrRecord Table) :
    firstNotString (E₁ ++ m :: E₂) rest = .error (errNotString m.key m.ty) := by
  induction E₁ with
  | nil => exact firstNotString_cons_other hm E₂ rest
  | cons x E₁ ih =>
    obtain ⟨hx, hE⟩ := List.forall_mem_cons.mp h
    exact (firstNotString_cons_string hx _ rest).trans (ih hE)

/-- A table is the result only if every member is a string. -/
theorem strings_of_firstNotString {E : List Member} {rest : Except ErrRecord Table} {T : Table}
    (h : firstNotString E rest = .ok T) : ∀ x ∈ E, x.ty = typeString := by
  cases hfind : E.find? fun m => m.ty != typeString with
  | some m => simp [firstNotString, hfind] at h
  | none =>
    intro x hx
    simpa using List.find?_eq_none.mp hfind x hx

/-- `import_table` gives a table if every member is a string and step 3 gives it. -/
theorem importTable_object_eq_ok_iff {cap : Nat} {E : List Member} {T : Table} :
    importTable cap typeObject E = .ok T ↔ (∀ x ∈ E, x.ty = typeString) ∧ importEntries cap E [] = .ok T := by
  rw [importTable_object]
  constructor
  · intro h
    have hstrings := strings_of_firstNotString h
    exact ⟨hstrings, (firstNotString_of_strings hstrings _).symm.trans h⟩
  · rintro ⟨hstrings, h⟩
    rw [firstNotString_of_strings hstrings, h]

section ImportEntries
variable {cap : Nat} {m : Member} {T : Table}

theorem importEntries_cons_of_ok {T' : Table} (h : stageString cap m T = .ok T') (E : List Member) :
    importEntries cap (m :: E) T = importEntries cap E T' := by
  simp only [importEntries, h]

theorem importEntries_cons_of_error {e : ErrRecord} (h : stageString cap m T = .error e) (E : List Member) :
    importEntries cap (m :: E) T = .error e := by
  simp only [importEntries, h]

theorem importEntries_cons_eq_ok {E : List Member} {T' : Table} (h : importEntries cap (m :: E) T = .ok T') :
    ∃ T₁, stageString cap m T = .ok T₁ ∧ importEntries cap E T₁ = .ok T' := by
  cases hs : stageString cap m T with
  | ok T₁ => exact ⟨T₁, rfl, importEntries_cons_of_ok hs E ▸ h⟩
  | error e => cases (importEntries_cons_of_error hs E).symm.trans h

/-- Members that were all placed leave the table that the next ones find. -/
theorem importEntries_append_of_ok {E₁ : List Member} {T' : Table} (h : importEntries cap E₁ T = .ok T')
    (E₂ : List Member) : importEntries cap (E₁ ++ E₂) T = importEntries cap E₂ T' := by
  induction E₁ generalizing T with
  | nil =>
    cases h
    rfl
  | cons m E₁ ih =>
    obtain ⟨T₁, hs, hrest⟩ := importEntries_cons_eq_ok h
    exact (importEntries_cons_of_ok hs _).trans (ih hrest)

/-- Among strings, the first member that cannot be staged decides. -/
theorem importTable_of_first_failing {E₁ E₂ : List Member} (hstrings : ∀ x ∈ E₁ ++ m :: E₂, x.ty = typeString)
    (h : importTable cap typeObject E₁ = .ok T) {e : ErrRecord} (hs : stageString cap m T = .error e) :
    importTable cap typeObject (E₁ ++ m :: E₂) = .error e := by
  obtain ⟨_, hbefore⟩ := importTable_object_eq_ok_iff.mp h
  rw [importTable_object, firstNotString_of_strings hstrings, importEntries_append_of_ok hbefore,
    importEntries_cons_of_error hs]

/-- With a slot to spare, a string that decodes is placed and takes at most one slot. -/
theorem stageString_of_room {g : Glyph} (h : decodeGlyph m.len (stringChars m.chars) = .ok g)
    (hroom : T.length < cap) : ∃ T', stageString cap m T = .ok T' ∧ T'.length ≤ T.length + 1 := by
  rw [stageString_of_decoded h]
  rcases placeGlyph_cases cap T m.key g with ⟨i, _, _, hp⟩ | ⟨_, hfull, _⟩ | ⟨_, _, hp⟩
  · exact ⟨_, hp, by simp⟩
  · omega
  · exact ⟨_, hp, by simp [ftAppend]⟩

/-- Good members that fit are all placed. -/
theorem importEntries_of_room {E : List Member}
    (h : ∀ x ∈ E, ∃ g, decodeGlyph x.len (stringChars x.chars) = .ok g) (hroom : T.length + E.length ≤ cap) :
    ∃ T', importEntries cap E T = .ok T' := by
  induction E generalizing T with
  | nil => exact ⟨T, rfl⟩
  | cons m E ih =>
    obtain ⟨⟨g, hg⟩, hE⟩ := List.forall_mem_cons.mp h
    rw [List.length_cons] at hroom
    obtain ⟨T₁, hs, hlen⟩ := stageString_of_room (T := T) (cap := cap) hg (by omega)
    rw [importEntries_cons_of_ok hs]
    exact ih hE (by omega)

end ImportEntries

/-- Settles O51: the top-level type, then the members that are no strings, then the first that cannot be
staged; each good member takes one slot at most. -/
theorem importTableValidatesInOrder : Obligations.ImportTableValidatesInOrder := by
  refine fun cap E => ⟨fun top htop => importTable_of_top htop cap E, ?_, ?_, ?_, fun hgood hlen => ?_⟩
  · rintro E₁ m E₂ rfl hbefore hm
    exact firstNotString_append_cons hbefore hm E₂ _
  · rintro E₁ m E₂ T e rfl hstrings hbefore hdecode
    exact importTable_of_first_failing hstrings hbefore (stageString_of_undecodable hdecode cap T)
  · rintro E₁ m E₂ T g rfl hstrings hbefore hdecode hkey hfull
    exact importTable_of_first_failing hstrings hbefore
      ((stageString_of_decoded hdecode cap T).trans (placeGlyph_of_full hkey hfull g))
  · obtain ⟨T, hT⟩ := importEntries_of_room (T := []) (fun x hx => (hgood x hx).2) (by simpa using hlen)
    exact ⟨T, importTable_object_eq_ok_iff.mpr ⟨fun x hx => (hgood x hx).1, hT⟩⟩

/-! ## The imported table (rule R143) -/

/-- The tables that step 3 of `import_table` builds, member by member: a member with a key that is there
replaces its glyph, and one with a new key is appended (rules R141, R143). -/
inductive BuiltFrom : List Member → Table → Prop where
  | nil : BuiltFrom [] []
  | replace {E : List Member} {T : Table} {m : Member} {i : Fin T.length} {g : Glyph} (built : BuiltFrom E T)
      (decoded : decodeGlyph m.len (stringChars m.chars) = .ok g) (found : (ftRead T i).key = m.key) :
      BuiltFrom (E ++ [m]) (ftWrite T i g)
  | append {E : List Member} {T : Table} {m : Member} {g : Glyph} (built : BuiltFrom E T)
      (decoded : decodeGlyph m.len (stringChars m.chars) = .ok g) (absent : m.key ∉ T.map Entry.key) :
      BuiltFrom (E ++ [m]) (ftAppend T m.key g)

theorem BuiltFrom.stageString {E : List Member} {T : Table} (h : BuiltFrom E T) {cap : Nat} {m : Member}
    {T' : Table} (hs : stageString cap m T = .ok T') : BuiltFrom (E ++ [m]) T' := by
  rcases stageString_cases cap m T with ⟨_, _, he⟩ | ⟨g, hg, hplace⟩
  · cases he.symm.trans hs
  · rw [hplace] at hs
    rcases placeGlyph_cases cap T m.key g with ⟨i, _, hi, hp⟩ | ⟨_, _, hp⟩ | ⟨hk, _, hp⟩ <;> cases hp.symm.trans hs
    · exact h.replace hg hi
    · exact h.append hg hk

/-- What `import_table` builds from a table under construction. -/
theorem BuiltFrom.importEntries {E₀ : List Member} {T₀ : Table} (h : BuiltFrom E₀ T₀) {cap : Nat}
    {E : List Member} {T : Table} (himport : importEntries cap E T₀ = .ok T) : BuiltFrom (E₀ ++ E) T := by
  induction E generalizing E₀ T₀ with
  | nil =>
    cases himport
    rwa [List.append_nil]
  | cons m E ih =>
    obtain ⟨T₁, hs, hrest⟩ := importEntries_cons_eq_ok himport
    rw [List.append_cons]
    exact ih (h.stageString hs) hrest

theorem mem_keys_of_ftRead {T : Table} {i : Fin T.length} {k : Key} (h : (ftRead T i).key = k) :
    k ∈ T.map Entry.key :=
  List.mem_map.mpr ⟨_, List.getElem_mem i.isLt, h⟩

/-- More members behind change no order of first appearance among the keys that are there. -/
theorem pairwise_idxOf_append {ks ls : List Key} (hmem : ∀ k ∈ ks, k ∈ ls)
    (h : ks.Pairwise fun a b => ls.idxOf a < ls.idxOf b) (ls' : List Key) :
    ks.Pairwise fun a b => (ls ++ ls').idxOf a < (ls ++ ls').idxOf b := by
  refine h.imp_of_mem fun ha hb hlt => ?_
  rwa [List.idxOf_append_of_mem (hmem _ ha), List.idxOf_append_of_mem (hmem _ hb)]

namespace BuiltFrom
variable {E : List Member} {T : Table}

theorem decodes (h : BuiltFrom E T) : ∀ m ∈ E, ∃ g, decodeGlyph m.len (stringChars m.chars) = .ok g := by
  induction h with
  | nil => exact fun _ hm => nomatch hm
  | replace _ decoded _ ih | append _ decoded _ ih =>
    exact List.forall_mem_append.mpr ⟨ih, List.forall_mem_singleton.mpr ⟨_, decoded⟩⟩

theorem mem_keys_iff (h : BuiltFrom E T) {k : Key} : k ∈ T.map Entry.key ↔ k ∈ E.map Member.key := by
  induction h generalizing k with
  | nil => rfl
  | @replace E T m i g _ _ found ih =>
    have hm : m.key ∈ E.map Member.key := ih.mp (mem_keys_of_ftRead found)
    rw [ftWrite_keys, ih, List.map_append, List.mem_append]
    refine ⟨.inl, ?_⟩
    rintro (hk | hk)
    · exact hk
    · exact List.mem_singleton.mp hk ▸ hm
  | append _ _ _ ih =>
    rw [ftAppend_keys, List.map_append, List.mem_append, List.mem_append, ih]
    rfl

/-- The keys stand in the order of their first appearance: a repeated key moves no other, and a new key first
appears after every other. -/
theorem pairwise_idxOf (h : BuiltFrom E T) :
    (T.map Entry.key).Pairwise fun a b => (E.map Member.key).idxOf a < (E.map Member.key).idxOf b := by
  induction h with
  | nil => exact List.Pairwise.nil
  | @replace E T m i g built _ _ ih =>
    rw [ftWrite_keys, List.map_append]
    exact pairwise_idxOf_append (fun _ => built.mem_keys_iff.mp) ih _
  | @append E T m g built _ absent ih =>
    have hnew : m.key ∉ E.map Member.key := fun hm => absent (built.mem_keys_iff.mpr hm)
    rw [ftAppend_keys, List.map_append, List.pairwise_append]
    refine ⟨pairwise_idxOf_append (fun _ => built.mem_keys_iff.mp) ih _, List.pairwise_singleton _ _, ?_⟩
    intro a ha b hb
    obtain rfl := List.mem_singleton.mp hb
    have ha' := built.mem_keys_iff.mp ha
    rw [List.idxOf_append_of_mem ha', List.idxOf_append_of_notMem hnew]
    exact Nat.lt_add_right _ (List.idxOf_lt_length_of_mem ha')

theorem keys_nodup (h : BuiltFrom E T) : (T.map Entry.key).Nodup :=
  h.pairwise_idxOf.imp fun hlt heq => (heq ▸ hlt).false

end BuiltFrom

/-- The entry has the key and the glyph of a member after which no other has its key. -/
def FromLastMember (E : List Member) (x : Entry) : Prop :=
  ∃ E₁ m E₂, E = E₁ ++ m :: E₂ ∧ m.key = x.key ∧ (∀ y ∈ E₂, y.key ≠ x.key) ∧
    decodeGlyph m.len (stringChars m.chars) = .ok x.glyph

theorem fromLastMember_append_self (E : List Member) {m : Member} {g : Glyph}
    (h : decodeGlyph m.len (stringChars m.chars) = .ok g) :
    FromLastMember (E ++ [m]) { key := m.key, glyph := g } :=
  ⟨E, m, [], rfl, rfl, List.forall_mem_nil _, h⟩

/-- A member with another key leaves the last one with this key the last. -/
theorem FromLastMember.append_other {E : List Member} {x : Entry} (h : FromLastMember E x) {m : Member}
    (hm : m.key ≠ x.key) : FromLastMember (E ++ [m]) x := by
  obtain ⟨E₁, m', E₂, rfl, hkey, hlater, hdecode⟩ := h
  refine ⟨E₁, m', E₂ ++ [m], by simp, hkey, ?_, hdecode⟩
  exact List.forall_mem_append.mpr ⟨hlater, List.forall_mem_singleton.mpr hm⟩

theorem ftWrite_of_key {T : Table} {i : Fin T.length} {k : Key} (h : (ftRead T i).key = k) (g : Glyph) :
    ftWrite T i g = T.set i { key := k, glyph := g } := by
  rw [ftWrite, ← h]

theorem BuiltFrom.fromLastMember {E : List Member} {T : Table} (h : BuiltFrom E T) :
    ∀ x ∈ T, FromLastMember E x := by
  induction h with
  | nil => exact fun _ hx => nomatch hx
  | @replace E T m i g built decoded found ih =>
    intro x hx
    have hkeys : ((ftWrite T i g).map Entry.key).Nodup := (built.replace decoded found).keys_nodup
    rw [ftWrite_of_key found] at hx hkeys
    by_cases hkey : m.key = x.key
    · have hnew := List.inj_on_of_nodup_map hkeys (List.mem_set i.isLt _) hx hkey
      exact hnew ▸ fromLastMember_append_self E decoded
    · rcases List.mem_or_eq_of_mem_set hx with hold | rfl
      · exact (ih x hold).append_other hkey
      · exact absurd rfl hkey
  | @append E T m g _ decoded absent ih =>
    intro x hx
    rcases List.mem_append.mp hx with hold | hnew
    · exact (ih x hold).append_other fun hkey => absent (List.mem_map.mpr ⟨x, hold, hkey.symm⟩)
    · exact List.mem_singleton.mp hnew ▸ fromLastMember_append_self E decoded

/-- Settles O52: the table is built member by member, and each of its properties is kept by the two ways to
place a member. -/
theorem importedTableHasFirstSlotsAndLastGlyphs : Obligations.ImportedTableHasFirstSlotsAndLastGlyphs := by
  intro cap E T himport
  obtain ⟨hstrings, hentries⟩ := importTable_object_eq_ok_iff.mp himport
  have hbuilt : BuiltFrom E T := BuiltFrom.nil.importEntries hentries
  exact ⟨fun m hm => ⟨hstrings m hm, hbuilt.decodes m hm⟩, hbuilt.keys_nodup, fun _ => hbuilt.mem_keys_iff,
    hbuilt.pairwise_idxOf, hbuilt.fromLastMember⟩

/-! ## Commands inside a session (rule R149) -/

/-- With the session's fields replaced, the command does the same and leaves them. -/
def IgnoresSession (i : Instr) : Prop :=
  ∀ (s t : State) (isOpen : Bool) (S : Table) (err : Option ErrRecord), exec i s = .next t →
    exec i (s.withSession isOpen S err) = .next (t.withSession isOpen S err)

/-- A command that only answers, with a result computed from the live table alone. -/
theorem ignoresSession_of_result {i : Instr} (result : Table → Except ErrRecord Rsp)
    (h : ∀ s, exec i s = .next (answer (result s.ft) s)) : IgnoresSession i := by
  intro s t isOpen S err ht
  obtain ⟨w, hw⟩ := answer_word (result s.ft)
  cases ((h s).trans (congrArg _ (hw s))).symm.trans ht
  exact (h _).trans (congrArg _ (hw _))

theorem ignoresSession_ftsetbit (key : Key) (row col : BitVec 3) (val : Bool) :
    IgnoresSession (.ftsetbit key row col val) := by
  intro s t isOpen S err ht
  cases hfind : ftFind s.ft key with
  | none =>
    cases (exec_ftsetbit_of_absent hfind row col val).symm.trans ht
    exact exec_ftsetbit_of_absent (s := s.withSession isOpen S err) hfind row col val
  | some j =>
    cases (exec_ftsetbit_of_found hfind row col val).symm.trans ht
    exact exec_ftsetbit_of_found (s := s.withSession isOpen S err) hfind row col val

/-- A command that ignores the session leaves it, as it would any other. -/
theorem IgnoresSession.unchanged {i : Instr} (h : IgnoresSession i) {s t : State} (ht : exec i s = .next t) :
    t.impOpen = s.impOpen ∧ t.st = s.st ∧ t.impErr = s.impErr := by
  have hsame : exec i s = .next (t.withSession s.impOpen s.st s.impErr) := h s t s.impOpen s.st s.impErr ht
  have heq : t = t.withSession s.impOpen s.st s.impErr := Host.Outcome.next.inj (ht.symm.trans hsame)
  rw [heq]
  exact ⟨rfl, rfl, rfl⟩

/-- Every command ignores the session but those of the import, FTSTAT, which shows it, and FTINIT, which closes
it. -/
theorem ignoresSession {i : Instr} (hinit : i ≠ .ftinit) (hstat : i ≠ .ftstat) (hcommit : i ≠ .ftimpcommit)
    (hbegin : ∀ ty, i ≠ .ftimpbegin ty) (hentry : ∀ k ty l c, i ≠ .ftimpentry k ty l c) : IgnoresSession i := by
  cases i with
  | rowenc row => exact ignoresSession_of_result (fun _ => .ok (rowencRsp row)) fun _ => rfl
  | rowdec len chars => exact ignoresSession_of_result (fun _ => rowdecResult len chars) fun _ => rfl
  | glyenc image => exact ignoresSession_of_result (fun _ => .ok (glyencRsp image)) fun _ => rfl
  | glydec len chars => exact ignoresSession_of_result (fun _ => glydecResult len chars) fun _ => rfl
  | ftlookup key => exact ignoresSession_of_result (fun T => lookupResult T key) fun _ => rfl
  | ftsetbit key row col val => exact ignoresSession_ftsetbit key row col val
  | ftexport index => exact ignoresSession_of_result (fun T => exportResult T index) fun _ => rfl
  | reservedC | reservedD | reservedE | reservedF =>
    exact ignoresSession_of_result (fun _ => .error errIllegalCmd) fun _ => rfl
  | ftinit => exact absurd rfl hinit
  | ftstat => exact absurd rfl hstat
  | ftimpcommit => exact absurd rfl hcommit
  | ftimpbegin ty => exact absurd rfl (hbegin ty)
  | ftimpentry key ty len chars => exact absurd rfl (hentry key ty len chars)

/-- Settles O55: the commands that ignore the session, then FTSTAT and FTINIT. -/
theorem otherCommandsIgnoreTheSession : Obligations.OtherCommandsIgnoreTheSession := by
  refine ⟨fun i s t isOpen S err hinit hstat hcommit hbegin hentry ht => ?_, fun s => ?_, fun s t ht => ?_⟩
  · have hignores := ignoresSession hinit hstat hcommit hbegin hentry
    obtain ⟨hopen, hst, herr⟩ := hignores.unchanged ht
    exact ⟨hopen, hst, herr, hignores s t isOpen S err ht⟩
  · obtain ⟨_, hflag, _⟩ := rspWord_fields (statusView s)
    exact ⟨rspWord (statusView s), rfl, hflag⟩
  · cases (exec_ftinit s).symm.trans ht
    rfl

/-! ## The session computes `import_table` (rule R148) -/

/-- The command neither begins nor ends a session (rule R148). -/
def StaysInSession (c : Instr) : Prop :=
  c ≠ .ftinit ∧ c ≠ .ftimpcommit ∧ ∀ ty, c ≠ .ftimpbegin ty

theorem eq_entryCommand {c : Instr} {m : Member} (h : presentedMember c = some m) : c = entryCommand m := by
  cases c with
  | ftimpentry key ty len chars =>
    cases h
    rfl
  | _ => cases h

/-- Inside a session, a command that presents no member leaves the session as it is. -/
theorem session_of_no_member {c : Instr} (hc : StaysInSession c) (hm : presentedMember c = none) {s t : State}
    (ht : exec c s = .next t) : t.impOpen = s.impOpen ∧ t.st = s.st ∧ t.impErr = s.impErr := by
  obtain ⟨hinit, hcommit, hbegin⟩ := hc
  by_cases hstat : c = .ftstat
  · subst hstat
    cases ht
    exact ⟨rfl, rfl, rfl⟩
  · refine (ignoresSession hinit hstat hcommit hbegin ?_).unchanged ht
    rintro k ty l c rfl
    cases hm

/-- The commands of a session leave it open with exactly the members presented staged. -/
theorem session_of_execSeq {cs : List Instr} (hcs : ∀ c ∈ cs, StaysInSession c) {s u : State}
    (hopen : s.impOpen = true) (hu : execSeq cs s = .next u) :
    u.impOpen = true ∧
      (u.st, u.impErr) = stageMembers s.params.tableCap (cs.filterMap presentedMember) s.st s.impErr := by
  induction cs generalizing s with
  | nil =>
    cases hu
    exact ⟨hopen, rfl⟩
  | cons c cs ih =>
    obtain ⟨hc, hrest⟩ := List.forall_mem_cons.mp hcs
    cases hm : presentedMember c with
    | none =>
      obtain ⟨t, _, ht, _, hparams, _⟩ := exec_completes c s
      obtain ⟨hopen', hst, herr⟩ := session_of_no_member hc hm ht
      rw [List.filterMap_cons_none hm, ← hparams, ← hst, ← herr]
      exact ih hrest (hopen'.trans hopen) ((execSeq_cons_of_next ht cs).symm.trans hu)
    | some m =>
      obtain rfl := eq_entryCommand hm
      rw [List.filterMap_cons_some hm, stageMembers_cons]
      exact ih hrest rfl ((execSeq_cons_of_next (exec_entryCommand_of_open hopen m) cs).symm.trans hu)

/-- Before FTIMPCOMMIT, the verdict of the session is what `import_table` gives for the members presented. -/
theorem verdict_of_session {cs : List Instr} (hcs : ∀ c ∈ cs, StaysInSession c) {s u : State}
    (hu : execSeq (.ftimpbegin typeObject :: cs) s = .next u) :
    u.impOpen = true ∧
      verdict (u.st, u.impErr) = importTable s.params.tableCap typeObject (cs.filterMap presentedMember) := by
  rw [execSeq_cons_of_next (exec_ftimpbegin_of_object s)] at hu
  obtain ⟨hopen, hstaged⟩ := session_of_execSeq hcs rfl hu
  exact ⟨hopen, by rw [hstaged, importTable_object]; exact verdict_stageMembers _ _ _⟩

/-- The state a command leaves is the one its response comes with. -/
theorem exec_of_issue {i : Instr} {s t : State} {w : RspWord} (h : issue i s = .next (t, w)) :
    exec i s = .next t := by
  obtain ⟨t', _, ht', _⟩ := exec_completes i s
  simp only [issue, ht', Host.Outcome.next.injEq, Prod.mk.injEq] at h
  obtain ⟨rfl, _⟩ := h
  exact ht'

/-- Only the top-level type fails with no members. -/
theorem importTable_nil_error {cap : Nat} {top : TypeCode} {e : ErrRecord}
    (h : importTable cap top [] = .error e) : top ≠ typeObject ∧ e = errNotObject top := by
  by_cases htop : top = typeObject
  · subst htop
    cases h
  · exact ⟨htop, Except.error.inj (h.symm.trans (importTable_of_top htop cap []))⟩

/-- Settles O53: the session's verdict is that of `import_table`, by induction over the commands, and
FTIMPCOMMIT gives the verdict. -/
theorem sessionComputesImportTable : Obligations.SessionComputesImportTable := by
  refine ⟨fun s top e himport => ?_, fun s u cs hcs hu => ?_⟩
  · obtain ⟨htop, rfl⟩ := importTable_nil_error himport
    exact exec_ftimpbegin_of_other htop s
  · obtain ⟨hopen, hverdict⟩ := verdict_of_session hcs hu
    exact ⟨fun T hT => exec_of_issue (issue_ftimpcommit_of_ok hopen (hverdict.trans hT)),
      fun e he => exec_of_issue (issue_ftimpcommit_of_error hopen (hverdict.trans he))⟩

end Sys2Proof.Machine

/-! Failing (60_exceptions.md): what a command that answers an error does to the state (rule R165), and which
statuses a command can answer with (rule R161). -/

namespace Sys2Proof.Machine

/-! ## The errors each command can raise (rule R161) -/

theorem rowdecResult_error_status {len : BitVec 8} {chars : BitVec 16} {e : ErrRecord}
    (h : rowdecResult len chars = .error e) : e.status ∈ statusesOf (.rowdec len chars) := by
  rcases decodeRow_cases len (lane chars 0) (lane chars 1) with
    ⟨_, hd⟩ | ⟨_, _, hd⟩ | ⟨_, _, _, _, hd⟩ | ⟨_, _, _, _, _, hd⟩ <;>
    simp only [rowdecResult, hd] at h <;> cases h
  · simp [statusesOf, errFormatLen]
  · simp [statusesOf, errFormatDigit]
  · simp [statusesOf, errFormatDigit]

theorem glydecResult_error_status {len : BitVec 8} {chars : BitVec 128} {e : ErrRecord}
    (h : glydecResult len chars = .error e) : e.status ∈ statusesOf (.glydec len chars) := by
  cases hd : decodeGlyph len (stringChars chars) with
  | ok g => simp [glydecResult, hd] at h
  | error e' =>
    obtain rfl : e' = e := by simpa [glydecResult, hd] using h
    rcases decodeGlyph_error_cases hd with ⟨_, rfl⟩ | ⟨_, rfl⟩
    · simp [statusesOf, errFormatLen]
    · simp [statusesOf, errFormatDigit]

theorem lookupResult_error_status {T : Table} {key : Key} {e : ErrRecord} (h : lookupResult T key = .error e) :
    e.status ∈ statusesOf (.ftlookup key) := by
  unfold lookupResult at h
  split at h <;> cases h
  simp [statusesOf, errKeyNotFound]

theorem exportResult_error_status {T : Table} {index : BitVec 8} {e : ErrRecord}
    (h : exportResult T index = .error e) : e.status ∈ statusesOf (.ftexport index) := by
  unfold exportResult at h
  split at h <;> cases h
  simp [statusesOf, errIndexRange]

/-- The errors an import can record are among those FTIMPCOMMIT can report. -/
theorem mem_statusesOf_of_sessionError {e : ErrRecord} (h : sessionError e) : e.status ∈ statusesOf .ftimpcommit := by
  rcases h with ⟨he, _⟩ | ⟨he, _⟩ | ⟨he, _⟩ | ⟨he, _⟩ <;> rw [he] <;> decide

/-! ## All the ways a command ends (rules R161, R165) -/

/-- A command answers OK, or fails with the state as it was; or it fails and the import session is closed: by
an FTIMPBEGIN of a value that is no object, or by an FTIMPCOMMIT reporting the recorded error. -/
inductive Ends (i : Instr) (s : State) : Host.Outcome State Fault Refusal → Prop where
  | ok {r : Rsp} {u : State} (hi : .ok ∈ statusesOf i) (hr : r.status = .ok) (hu : u.rsps = s.rsps) :
      Ends i s (.next (respond r u))
  | failed {e : ErrRecord} (he : e.status ∈ statusesOf i) : Ends i s (.next (fail e s))
  | notObject {ty : TypeCode} (hi : i = .ftimpbegin ty) :
      Ends i s (.next (fail (errNotObject ty) (closeSession s)))
  | reported {e : ErrRecord} (hi : i = .ftimpcommit) (hopen : s.impOpen = true) (herr : s.impErr = some e) :
      Ends i s (.next (fail e (closeSession s)))

/-- A command that only answers, with a result that is OK or with an error it can raise. -/
theorem ends_answer {i : Instr} {result : Except ErrRecord Rsp} (hi : .ok ∈ statusesOf i)
    (hok : ∀ r, result = .ok r → r.status = .ok) (herr : ∀ e, result = .error e → e.status ∈ statusesOf i)
    (s : State) : Ends i s (.next (answer result s)) := by
  cases result with
  | ok r => exact .ok hi (hok r rfl) rfl
  | error e => exact .failed (herr e rfl)

/-- Every command ends in one of these ways, in every state. -/
theorem ends_exec (i : Instr) (s : State) : Ends i s (exec i s) := by
  cases i with
  | rowenc row => exact .ok List.mem_cons_self rfl rfl
  | rowdec len chars =>
    exact ends_answer List.mem_cons_self (fun _ => rowdecResult_status) (fun _ => rowdecResult_error_status) s
  | glyenc image => exact .ok List.mem_cons_self rfl rfl
  | glydec len chars =>
    exact ends_answer List.mem_cons_self (fun _ => glydecResult_status) (fun _ => glydecResult_error_status) s
  | ftinit => exact .ok List.mem_cons_self rfl rfl
  | ftlookup key =>
    exact ends_answer List.mem_cons_self (fun _ => lookupResult_status) (fun _ => lookupResult_error_status) s
  | ftsetbit key row col val =>
    rcases execFtsetbit_cases key row col val s with ⟨_, h⟩ | ⟨_, _, _, h⟩ <;> rw [exec, h]
    · exact .failed (by simp [statusesOf, errKeyNotFound])
    · exact .ok List.mem_cons_self rfl rfl
  | ftstat => exact .ok List.mem_cons_self rfl rfl
  | ftexport index =>
    exact ends_answer List.mem_cons_self (fun _ => exportResult_status) (fun _ => exportResult_error_status) s
  | ftimpbegin ty =>
    rcases execFtimpbegin_cases ty s with ⟨_, h⟩ | ⟨_, h⟩ <;> rw [exec, h]
    · exact .notObject rfl
    · exact .ok List.mem_cons_self rfl rfl
  | ftimpentry key ty len chars =>
    rcases execFtimpentry_cases key ty len chars s with ⟨_, h⟩ | ⟨_, _, _, _, h⟩ <;> rw [exec, h]
    · exact .failed (by simp [statusesOf, errProtocol])
    · exact .ok List.mem_cons_self rfl rfl
  | ftimpcommit =>
    rcases execFtimpcommit_cases s with ⟨_, h⟩ | ⟨_, _, h⟩ | ⟨_, hopen, herr, h⟩ <;> rw [exec, h]
    · exact .failed (by decide)
    · exact .ok List.mem_cons_self rfl rfl
    · exact .reported rfl hopen herr
  | reservedC | reservedD | reservedE | reservedF => exact .failed List.mem_cons_self

/-- The one word a response adds is that response's word. -/
theorem rspWord_of_respond {r : Rsp} {s u : State} {w : RspWord} (hw : (respond r u).rsps = s.rsps ++ [w])
    (hu : u.rsps = s.rsps) : w = rspWord r := by
  simpa [hu, eq_comm] using hw

/-- Settles O12: of the ways a command ends, an OK answer is excluded, a failure keeps the state, and the two
that close the session are the exceptions. -/
theorem failedCommandChangesNoState : Obligations.FailedCommandChangesNoState := by
  intro i s t w ht hw hne
  have hends := ends_exec i s
  rw [ht] at hends
  cases hends with
  | ok _ hr hu =>
    rw [rspWord_of_respond hw hu, rspStatus_rspWord, hr] at hne
    exact absurd rfl hne
  | failed _ =>
    obtain rfl := rspWord_of_respond hw rfl
    exact .inl rfl
  | notObject hi =>
    obtain rfl := rspWord_of_respond hw rfl
    exact .inr ⟨rfl, .inl ⟨_, hi, rspStatus_rspWord _⟩⟩
  | reported hi hopen herr =>
    obtain rfl := rspWord_of_respond hw rfl
    exact .inr ⟨rfl, .inr ⟨hi, hopen, _, herr, rfl⟩⟩

/-- Settles O14: of the ways a command ends, each answers a status of the command; the recorded error that
FTIMPCOMMIT reports is one of its own because the session is legal. -/
theorem commandAnswersOnlyItsStatuses : Obligations.CommandAnswersOnlyItsStatuses := by
  intro i s t w ⟨_, hrecord⟩ ht hw
  have hends := ends_exec i s
  rw [ht] at hends
  cases hends with
  | ok hi hr hu =>
    obtain rfl := rspWord_of_respond hw hu
    exact ⟨.ok, hi, by rw [rspStatus_rspWord, hr]⟩
  | failed he =>
    obtain rfl := rspWord_of_respond hw rfl
    exact ⟨_, he, rspStatus_rspWord _⟩
  | notObject hi =>
    subst hi
    obtain rfl := rspWord_of_respond hw rfl
    exact ⟨.validNotObject, by simp [statusesOf], rspStatus_rspWord _⟩
  | reported hi _ herr =>
    subst hi
    obtain rfl := rspWord_of_respond hw rfl
    exact ⟨_, mem_statusesOf_of_sessionError (hrecord _ herr), rspStatus_rspWord _⟩

end Sys2Proof.Machine

/-! What a step does by the event at the port (log entries 4 and 5): nothing, a reset (rule R180), or the
decoded command. -/

namespace Sys2Proof.Machine

/-- The reset of the block, field by field: the session's and the table's rules of R180 in one record. -/
theorem resetBlock_eq (s : State) :
    resetBlock s =
      { s with
        ft := s.params.alphabet.map (fun k => { key := k, glyph := blankGlyph })
        impOpen := false
        st := []
        impErr := none } := rfl

/-- Settles O7: the step at a port whose first event is a command. -/
theorem stepExecutesTheDecodedCommand : Obligations.StepExecutesTheDecodedCommand :=
  fun _ _ _ hport => step_of_port_command hport

/-- Settles O8: the step at a port whose first event is a reset, with the reset block written out. -/
theorem stepTakesAReset : Obligations.StepTakesAReset := by
  intro s rest hport
  rw [step_of_port_reset hport, resetBlock_eq]

/-- Settles O9: the step at an empty port. -/
theorem stepWithoutACommandChangesNothing : Obligations.StepWithoutACommandChangesNothing :=
  fun _ hport => step_of_port_nil hport

end Sys2Proof.Machine
